-- ==== Sys2Proof/Word.lean ====
section
/-! DEFINITION. The widths of the unit's data (00_scope.md R5, R6), the register indices of
30_encoding.md R46, and the alphabet of the ghost trace (70_reset_and_hazards.md R133). -/

set_option autoImplicit false

namespace Sys2Proof

/-- One byte of a register window (20_memory.md R29). -/
abbrev Byte := BitVec 8

/-- A 32-bit command or control word (R18, R19, R20, R44). -/
abbrev Word := BitVec 32

/-- The content of a field register or of K: `FE_BITS` = `K_BITS` = 240 bits; bit i is the
coefficient of x^i (R5, R7, R12, R16). -/
abbrev Elem := BitVec 240

/-- The unreduced product of two 240-bit values has 479 bits (R56). -/
abbrev Product := BitVec 479

/-- Index of a field register F0..F7 (`NFREG` = 8, R12). -/
abbrev FReg := Fin 8

/-- Index of a point register P0..P3 (`NPREG` = 4, R14). -/
abbrev PReg := Fin 4

/-- A pair of field elements (R14). -/
structure Point where
  x : Elem
  y : Elem
deriving DecidableEq, Repr, Inhabited

/-- `INF`, the all-zero sentinel for the point at infinity (R15). -/
def inf : Point := ⟨0, 0⟩

/-- The five events of the ghost trace (R133): the point level is `dbl`, `add`, the field level
`inv`, `mul`, `sqr`. -/
inductive Event where
  | dbl
  | add
  | inv
  | mul
  | sqr
deriving DecidableEq, Repr

end Sys2Proof
end

