-- ==== Sys2Proof/Machine/FieldArith.lean ====
section
/-! DEFINITION. The field functions of 40_field.md section 2 (R56 to R60) and `degree` (R67), as pure
functions of 240-bit values. -/

set_option autoImplicit false

namespace Sys2Proof

/-- The exclusive-or of `a << i` over the `i < n` with `b[i] = 1`. -/
def clMulUpTo (a b : Elem) : Nat → Product
  | 0 => 0
  | i + 1 => clMulUpTo a b i ^^^ (if b.getLsbD i then a.setWidth 479 <<< i else 0)

/-- `ClMul(a, b)`, the carry-less product, not truncated (R56). -/
def clMul (a b : Elem) : Product := clMulUpTo a b 240

/-- `F_POLY` = 2^233 + 2^74 + 1, the polynomial x^233 + x^74 + 1, at width `w` (R5, R23, R57). -/
def fPoly (w : Nat) : BitVec w := BitVec.ofNat w (2 ^ 233 + 2 ^ 74 + 1)

/-- The loop of R57 over bit indices `233 + n - 1` down to `233`: a set bit `i` is cleared by
adding `F_POLY << (i - 233)`. -/
def reduceFrom {w : Nat} (c : BitVec w) : Nat → BitVec w
  | 0 => c
  | n + 1 => reduceFrom (if c.getLsbD (233 + n) then c ^^^ (fPoly w <<< n) else c) n

/-- `Reduce(c)`, the remainder modulo x^233 + x^74 + 1, for `c` of any width (R57). -/
def reduce {w : Nat} (c : BitVec w) : Elem :=
  ((reduceFrom c (w - 233)).setWidth 233).setWidth 240

/-- `FMul(a, b) = Reduce(ClMul(a, b))` (R58). -/
def fMul (a b : Elem) : Elem := reduce (clMul a b)

/-- The bits `2i` of `Spread(a)` for `i < n`. -/
def spreadUpTo (a : Elem) : Nat → Product
  | 0 => 0
  | i + 1 => spreadUpTo a i ||| (if a.getLsbD i then 1 <<< (2 * i) else 0)

/-- `Spread(a)`: a zero inserted between each two bits (R59). -/
def spread (a : Elem) : Product := spreadUpTo a 240

/-- `FSqr(a) = Reduce(Spread(a))` (R59). -/
def fSqr (a : Elem) : Elem := reduce (spread a)

/-- `n` rounds of the ladder of R60: from exponent 1, each round takes `e` to `2e + 1`. -/
def fInvLadder (a : Elem) : Nat → Elem
  | 0 => reduce a
  | n + 1 => fMul (fSqr (fInvLadder a n)) a

/-- `FInv(a)` (R60): the inverse, as a^(2^233 - 2) by the reference ladder; no value where
`Reduce(a) = 0`. -/
def fInv (a : Elem) : Option Elem :=
  if reduce a = 0 then none else some (fSqr (fInvLadder a 231))

/-- The largest `i < n` with `a[i] = 1`, and 0 where there is none. -/
def topBit (a : Elem) : Nat → Nat
  | 0 => 0
  | i + 1 => if a.getLsbD i then i else topBit a i

/-- The index of the highest set bit of all 240 (R67); 0 for the zero operand, which FDEG's T flag
tells apart (decision D17). -/
def degree (a : Elem) : Nat := topBit a 240

/-- Canonical (reduced) form: bits 239..233 are zero (R13). -/
def canonical (a : Elem) : Bool := a >>> 233 == 0

end Sys2Proof
end

