-- ==== Sys2Proof/Machine/PointArith.lean ====
section
/-! DEFINITION. The point functions of 41_point.md section 2 (R74 to R78) on pairs of 240-bit values,
and the field-level events each of them emits (R134). A function answers `none` where the spec
gives no value (`UNSPECIFIED_240`: an inversion of a value congruent to 0). -/

set_option autoImplicit false

namespace Sys2Proof

/-- `PointIsZero(P)`: both coordinates are bitwise zero (R77). -/
def pointIsZero (p : Point) : Bool := p.x == 0 && p.y == 0

/-- The formula of `PointDouble` with `xi` the inverse of x (R74). -/
def doubleFormula (p : Point) (xi : Elem) : Point :=
  let l := p.x ^^^ fMul p.y xi
  let x' := fSqr l ^^^ l
  ⟨x', fSqr p.x ^^^ fMul l x' ^^^ x'⟩

/-- `PointDouble(P)` (R74): `INF` when y is bitwise zero, no value when x is congruent to 0 and
y is not zero, else the tangent formula. -/
def pointDouble (p : Point) : Option Point :=
  if p.y = 0 then some inf else (fInv p.x).map (doubleFormula p)

/-- The field-level events of `PointDouble` (R74, R134). -/
def doubleEvents (p : Point) : List Event :=
  if p.y = 0 then []
  else if reduce p.x = 0 then [.inv]
  else [.inv, .mul, .sqr, .sqr, .mul]

/-- The general addition of `PointAdd` with `di` the inverse of xp + xq (R75 case 5). -/
def addFormula (p q : Point) (di : Elem) : Point :=
  let l := fMul (p.y ^^^ q.y) di
  let xr := fSqr l ^^^ l ^^^ p.x ^^^ q.x
  ⟨xr, fMul l (p.x ^^^ xr) ^^^ p.y ^^^ xr⟩

/-- `PointAdd(P, Q)` (R75): the five cases in CRYPTX's order, the first match wins; equality of
points is bitwise (R78). -/
def pointAdd (p q : Point) : Option Point :=
  if pointIsZero q then some p
  else if pointIsZero p then some q
  else if p.x = q.x ∧ p.y = q.y then pointDouble p
  else if p.x = q.x then some inf
  else (fInv (p.x ^^^ q.x)).map (addFormula p q)

/-- The field-level events of `PointAdd` (R75, R134). -/
def addEvents (p q : Point) : List Event :=
  if pointIsZero q then []
  else if pointIsZero p then []
  else if p.x = q.x ∧ p.y = q.y then doubleEvents p
  else if p.x = q.x then []
  else if reduce (p.x ^^^ q.x) = 0 then [.inv]
  else [.inv, .mul, .sqr, .mul]

/-- Both sides of y² + xy = x³ + 1 are equal (R76). -/
def onCurve (p : Point) : Bool :=
  fSqr p.y ^^^ fMul p.x p.y == fMul (fSqr p.x) p.x ^^^ 1

/-- `PointValid(P)` (R76): `INF`, or no degree overflow and on the curve. -/
def pointValid (p : Point) : Bool :=
  pointIsZero p || (canonical p.x && canonical p.y && onCurve p)

/-- The field-level events of `PointValid` (R76, R134). -/
def validEvents (p : Point) : List Event :=
  if pointIsZero p then []
  else if canonical p.x && canonical p.y then [.sqr, .mul, .sqr, .mul]
  else []

end Sys2Proof
end

