-- ==== Sys2Proof/Config.lean ====
section
/-! DEFINITION. What is fixed for one unit: the parameters of 00_scope.md R5, the open parameter G
(R23, decision D20), and the free values, constants without a body that no proof can evaluate:
the content of `UNSPECIFIED_240` (R8, 93_implementation_defined.md U1 to U3) and the answers of
the random-byte source that a state does not list (20_memory.md R42). -/

set_option autoImplicit false

namespace Sys2Proof

/-- `PRIV_BYTES` = 30, the length of KGEN's one request (R5, R42, R98). -/
def Config.privBytes : Nat := 30

/-- `BIT_WIDTH` = 233, the scalar bits KGEN and SSEC consume (R5, R94). -/
def Config.bitWidth : Nat := 233

/-- `K_BITS` = 240, the largest `bit_width` SMUL takes (R5, R47, R50). -/
def Config.maxBitWidth : Nat := 240

/-- One answer of the random-byte source: `ok`, and 30 bytes, `bytes[0]` delivered first (R42). -/
structure RngAnswer where
  ok : Bool
  bytes : Vector Byte 30
deriving DecidableEq, Repr, Inhabited

/-- A generator the spec admits (R23, U12): a valid point other than `INF` (validity includes
canonical coordinates). The defaults only show that one exists; they are not the unit's G. -/
structure Generator where
  point : Point := ⟨1, 0⟩
  valid : pointValid point = true := by decide +kernel
  ne_inf : point ≠ inf := by decide +kernel
deriving Inhabited

/-- G = (`G_X`, `G_Y`), the open parameter of decision D20: any admissible generator.
DESIGN CHOICE (assumption 6); safe. -/
opaque Config.generator : Generator

/-- The n-th draw of an unspecified 240-bit value (`UNSPECIFIED_240`, R8, R64, R74, R75, U1, U2):
not assumed canonical, nor equal on two draws. Free value (assumption 2); safe. -/
opaque Config.unspecified240 : Nat → Elem

/-- The answer to the n-th request of a run when the state lists no pending answer (R42): any `ok`,
any bytes. Free value (assumption 5). -/
opaque Config.rngAnswer : Nat → RngAnswer

end Sys2Proof
end

