-- ==== Sys2Proof/Syntax.lean ====
section
/-! DEFINITION. The fourteen commands of 30_encoding.md R48, one constructor per row of
spec/opcode_table.json, operands in the order of R48's "operands" column. -/

set_option autoImplicit false

namespace Sys2Proof

/-- A command of `GF233-CMD v1`. Register indices are in range by their types (R46); the two
constraints a type does not carry are in `Instr.wf`. -/
inductive Instr where
  /-- `FADD Fd, Fa, Fb` (R61) -/
  | fadd (rd ra rb : FReg)
  /-- `FMUL Fd, Fa, Fb`, legal for rd ≠ rb (R51, R62) -/
  | fmul (rd ra rb : FReg)
  /-- `FSQR Fd, Fa` (R63) -/
  | fsqr (rd ra : FReg)
  /-- `FINV Fd, Fa` (R64) -/
  | finv (rd ra : FReg)
  /-- `FISZ Fa` (R65) -/
  | fisz (ra : FReg)
  /-- `FEQ Fa, Fb` (R66) -/
  | feq (ra rb : FReg)
  /-- `FDEG Fa` (R67) -/
  | fdeg (ra : FReg)
  /-- `PDBL Pd` (R79) -/
  | pdbl (rd : PReg)
  /-- `PADD Pd, Pa` (R80) -/
  | padd (rd ra : PReg)
  /-- `PVAL Pa` (R81) -/
  | pval (ra : PReg)
  /-- `PISZ Pa` (R82) -/
  | pisz (ra : PReg)
  /-- `SMUL Pd, Pa, bw`, legal for bw ≤ 240 (R47, R89) -/
  | smul (rd ra : PReg) (bw : BitVec 12)
  /-- `KGEN Pd` (R98) -/
  | kgen (rd : PReg)
  /-- `SSEC Pd, Pa` (R99) -/
  | ssec (rd ra : PReg)
deriving DecidableEq, Repr

end Sys2Proof
end

