-- ==== Sys2Proof/WellFormed.lean ====
section
/-! DEFINITION. Which commands have a legal word: the two constraints of 30_encoding.md that the types
of `Instr` do not carry. -/

set_option autoImplicit false

namespace Sys2Proof

/-- FMUL's destination is not its second source (R51); SMUL's width is at most 240 (R47, R50). -/
def Instr.wf : Instr → Bool
  | .fadd _ _ _ => true
  | .fmul rd _ rb => rd != rb
  | .fsqr _ _ => true
  | .finv _ _ => true
  | .fisz _ => true
  | .feq _ _ => true
  | .fdeg _ => true
  | .pdbl _ => true
  | .padd _ _ => true
  | .pval _ => true
  | .pisz _ => true
  | .smul _ _ bw => decide (bw.toNat ≤ Config.maxBitWidth)
  | .kgen _ => true
  | .ssec _ _ => true

end Sys2Proof
end

