-- ==== Sys2Proof/Decode.lean ====
section
/-! DEFINITION. The decoder of the command word, total and rejecting by name, the encoder, and the
opcode table they agree with (30_encoding.md R44 to R53). -/

set_option autoImplicit false

namespace Sys2Proof

/-- Why a word is no legal command. The hardware answers InvalidArgument to each of them alike
(R52, R110); which name a word gets when several apply is not observable. -/
inductive Illegal where
  /-- `op` is not in the opcode map (R49) -/
  | reservedOpcode
  /-- a used field index above 7 or point index above 3 (R50) -/
  | indexOutOfRange
  /-- a register field the command does not use is not 0 (R50) -/
  | unusedFieldNonzero
  /-- `imm` is not 0 in a command other than SMUL (R47, R50) -/
  | immediateNonzero
  /-- `imm` above 240 in SMUL (R50) -/
  | widthTooLarge
  /-- FMUL with `rd` = `rb` (R51) -/
  | multiplyAliased
  /-- not the four bytes of one word (R20, R29, R44) -/
  | notOneWord
deriving DecidableEq, Repr

/-! ### Fields of the command word (R45) -/

/-- `op`, bits 31:24. -/
def opField (w : Word) : BitVec 8 := w.extractLsb' 24 8

/-- `rd`, bits 23:20. -/
def rdField (w : Word) : BitVec 4 := w.extractLsb' 20 4

/-- `ra`, bits 19:16. -/
def raField (w : Word) : BitVec 4 := w.extractLsb' 16 4

/-- `rb`, bits 15:12. -/
def rbField (w : Word) : BitVec 4 := w.extractLsb' 12 4

/-- `imm`, bits 11:0. -/
def immField (w : Word) : BitVec 12 := w.extractLsb' 0 12

/-! ### Checks of one field (R46, R47, R50) -/

/-- A used field-register index must be 0..7. -/
def asFReg (x : BitVec 4) : Except Illegal FReg :=
  if h : x.toNat < 8 then .ok ⟨x.toNat, h⟩ else .error .indexOutOfRange

/-- A used point-register index must be 0..3. -/
def asPReg (x : BitVec 4) : Except Illegal PReg :=
  if h : x.toNat < 4 then .ok ⟨x.toNat, h⟩ else .error .indexOutOfRange

/-- An unused register field must be 0. -/
def unused (x : BitVec 4) : Except Illegal Unit :=
  if x = 0 then .ok () else .error .unusedFieldNonzero

/-- `imm` must be 0 in every command but SMUL. -/
def noImm (x : BitVec 12) : Except Illegal Unit :=
  if x = 0 then .ok () else .error .immediateNonzero

/-- The constraints of `Instr.wf`, by name: FMUL's aliasing (R51) and SMUL's width (R50). -/
def checkWf (i : Instr) : Except Illegal Instr :=
  if i.wf then .ok i
  else
    match i with
    | .fmul _ _ _ => .error .multiplyAliased
    | _ => .error .widthTooLarge

/-! ### Operand shapes -/

/-- Fd, Fa, Fb. -/
def decodeFFF (w : Word) (mk : FReg → FReg → FReg → Instr) : Except Illegal Instr := do
  noImm (immField w)
  checkWf (mk (← asFReg (rdField w)) (← asFReg (raField w)) (← asFReg (rbField w)))

/-- Fd, Fa. -/
def decodeFF (w : Word) (mk : FReg → FReg → Instr) : Except Illegal Instr := do
  noImm (immField w)
  unused (rbField w)
  checkWf (mk (← asFReg (rdField w)) (← asFReg (raField w)))

/-- Fa, Fb as the two sources. -/
def decodeSS (w : Word) (mk : FReg → FReg → Instr) : Except Illegal Instr := do
  noImm (immField w)
  unused (rdField w)
  checkWf (mk (← asFReg (raField w)) (← asFReg (rbField w)))

/-- Fa alone, as a source. -/
def decodeS (w : Word) (mk : FReg → Instr) : Except Illegal Instr := do
  noImm (immField w)
  unused (rdField w)
  unused (rbField w)
  checkWf (mk (← asFReg (raField w)))

/-- Pd alone. -/
def decodePd (w : Word) (mk : PReg → Instr) : Except Illegal Instr := do
  noImm (immField w)
  unused (raField w)
  unused (rbField w)
  checkWf (mk (← asPReg (rdField w)))

/-- Pa alone, as a source. -/
def decodePa (w : Word) (mk : PReg → Instr) : Except Illegal Instr := do
  noImm (immField w)
  unused (rdField w)
  unused (rbField w)
  checkWf (mk (← asPReg (raField w)))

/-- Pd, Pa. -/
def decodePP (w : Word) (mk : PReg → PReg → Instr) : Except Illegal Instr := do
  noImm (immField w)
  unused (rbField w)
  checkWf (mk (← asPReg (rdField w)) (← asPReg (raField w)))

/-- Pd, Pa, bw: the one shape that uses `imm`. -/
def decodePPI (w : Word) (mk : PReg → PReg → BitVec 12 → Instr) : Except Illegal Instr := do
  unused (rbField w)
  checkWf (mk (← asPReg (rdField w)) (← asPReg (raField w)) (immField w))

/-- The decoder of one command word by the opcode map of R48; an opcode not listed is reserved
(R49). -/
def decode (w : Word) : Except Illegal Instr :=
  match (opField w).toNat with
  | 0x01 => decodeFFF w .fadd
  | 0x02 => decodeFFF w .fmul
  | 0x03 => decodeFF w .fsqr
  | 0x04 => decodeFF w .finv
  | 0x05 => decodeS w .fisz
  | 0x06 => decodeSS w .feq
  | 0x07 => decodeS w .fdeg
  | 0x10 => decodePd w .pdbl
  | 0x11 => decodePP w .padd
  | 0x12 => decodePa w .pval
  | 0x13 => decodePa w .pisz
  | 0x20 => decodePPI w .smul
  | 0x30 => decodePd w .kgen
  | 0x31 => decodePP w .ssec
  | _ => .error .reservedOpcode

/-! ### The bytes of a control word (R35: bits 7:0 at the lowest address) -/

/-- The four bytes of a word, lowest address first. -/
def wordBytes (w : Word) : List Byte :=
  [w.extractLsb' 0 8, w.extractLsb' 8 8, w.extractLsb' 16 8, w.extractLsb' 24 8]

/-- The word held by four bytes, lowest address first; no word of any other number of bytes. -/
def bytesWord : List Byte → Option Word
  | [b0, b1, b2, b3] => some (b3 ++ b2 ++ b1 ++ b0)
  | _ => none

/-- The decoder on bytes, as a write to CMD delivers them. -/
def decodeBytes (bs : List Byte) : Except Illegal Instr :=
  match bytesWord bs with
  | some w => decode w
  | none => .error .notOneWord

/-! ### The encoder (R45, R53) -/

/-- `op << 24 | rd << 20 | ra << 16 | rb << 12 | imm`. -/
def assemble (op : BitVec 8) (rd ra rb : BitVec 4) (imm : BitVec 12) : Word :=
  op ++ rd ++ ra ++ rb ++ imm

/-- The register field of a field-register operand. -/
def ofFReg (n : FReg) : BitVec 4 := BitVec.ofNat 4 n.val

/-- The register field of a point-register operand. -/
def ofPReg (k : PReg) : BitVec 4 := BitVec.ofNat 4 k.val

/-- The command word of an instruction, each unused field 0 (R48, R53). -/
def encode : Instr → Word
  | .fadd rd ra rb => assemble 0x01 (ofFReg rd) (ofFReg ra) (ofFReg rb) 0
  | .fmul rd ra rb => assemble 0x02 (ofFReg rd) (ofFReg ra) (ofFReg rb) 0
  | .fsqr rd ra => assemble 0x03 (ofFReg rd) (ofFReg ra) 0 0
  | .finv rd ra => assemble 0x04 (ofFReg rd) (ofFReg ra) 0 0
  | .fisz ra => assemble 0x05 0 (ofFReg ra) 0 0
  | .feq ra rb => assemble 0x06 0 (ofFReg ra) (ofFReg rb) 0
  | .fdeg ra => assemble 0x07 0 (ofFReg ra) 0 0
  | .pdbl rd => assemble 0x10 (ofPReg rd) 0 0 0
  | .padd rd ra => assemble 0x11 (ofPReg rd) (ofPReg ra) 0 0
  | .pval ra => assemble 0x12 0 (ofPReg ra) 0 0
  | .pisz ra => assemble 0x13 0 (ofPReg ra) 0 0
  | .smul rd ra bw => assemble 0x20 (ofPReg rd) (ofPReg ra) 0 bw
  | .kgen rd => assemble 0x30 (ofPReg rd) 0 0 0
  | .ssec rd ra => assemble 0x31 (ofPReg rd) (ofPReg ra) 0 0

/-- `FCLR Fd`, the one pseudo-instruction: `FADD Fd, Fd, Fd` (R54). -/
def fclr (rd : FReg) : Instr := .fadd rd rd rd

/-! ### The opcode table (spec/opcode_table.json) -/

/-- One row: a word `w` selects it when `w & mask = pattern`. -/
structure TableRow where
  mnemonic : String
  pattern : Word
  mask : Word
deriving DecidableEq, Repr

/-- The row of an instruction's command. -/
def tableRow : Instr → TableRow
  | .fadd _ _ _ => ⟨"FADD", 0x01000000, 0xFF888FFF⟩
  | .fmul _ _ _ => ⟨"FMUL", 0x02000000, 0xFF888FFF⟩
  | .fsqr _ _ => ⟨"FSQR", 0x03000000, 0xFF88FFFF⟩
  | .finv _ _ => ⟨"FINV", 0x04000000, 0xFF88FFFF⟩
  | .fisz _ => ⟨"FISZ", 0x05000000, 0xFFF8FFFF⟩
  | .feq _ _ => ⟨"FEQ", 0x06000000, 0xFFF88FFF⟩
  | .fdeg _ => ⟨"FDEG", 0x07000000, 0xFFF8FFFF⟩
  | .pdbl _ => ⟨"PDBL", 0x10000000, 0xFFCFFFFF⟩
  | .padd _ _ => ⟨"PADD", 0x11000000, 0xFFCCFFFF⟩
  | .pval _ => ⟨"PVAL", 0x12000000, 0xFFFCFFFF⟩
  | .pisz _ => ⟨"PISZ", 0x13000000, 0xFFFCFFFF⟩
  | .smul _ _ _ => ⟨"SMUL", 0x20000000, 0xFFCCF000⟩
  | .kgen _ => ⟨"KGEN", 0x30000000, 0xFFCFFFFF⟩
  | .ssec _ _ => ⟨"SSEC", 0x31000000, 0xFFCCFFFF⟩

/-- `w` selects `r`. -/
def TableRow.selects (r : TableRow) (w : Word) : Bool := w &&& r.mask == r.pattern

/-! ### The host's reading -/

/-- The command word of `nbits` table bits, all bits above them 0. -/
def tableWord (nbits w : Nat) : Word := BitVec.ofNat 32 (w % 2 ^ nbits)

/-- The instruction the decoder reads from a row's word, laid out in bytes as a write to CMD
delivers them. -/
def decodeTableWord (nbits w : Nat) : Option Instr :=
  (decodeBytes (wordBytes (tableWord nbits w))).toOption

end Sys2Proof
end

