-- ==== Sys2Proof/Machine/State.lean ====
section
/-! DEFINITION. The state of one unit (10_state.md R11), the ghost state the rules speak of (R25, R27),
and the model's own record of the two other agents (R10): the host's pending actions and the
random-byte source's pending answers. -/

set_option autoImplicit false

namespace Sys2Proof.Machine

/-- One action of the host on the unit, or the platform's reset (R10, R29, R39, R122). -/
inductive HostAction where
  /-- `MemRead(addr, n)` (R29) -/
  | read (addr n : Nat)
  /-- `MemWrite(addr, n, v)`, n the number of bytes, `v` from the lowest address up (R29, R35) -/
  | write (addr : Nat) (bytes : List Byte)
  /-- the reset event (R122) -/
  | reset
deriving DecidableEq, Repr

/-- A fault stops the machine. -/
inductive Fault where
  /-- Raised by the bus (`stepHost`) for an access R36 refuses "with a bus-error response to the
  host and no change of state" (a write when `isWrite`). Safe: "a model should give a refused access
  no step". -/
  | busError (isWrite : Bool) (addr n : Nat)
deriving DecidableEq, Repr

/-- A refusal: the model gives an instruction no meaning. -/
inductive Refusal where
  /-- Raised by an arm of `exec` for an instruction not modelled yet; no arm does. Safe. -/
  | notModelled (mnemonic : String)
deriving DecidableEq, Repr

/-- The state of one unit. `f` to `deg` are the architectural state of R11 (P0..P3 are pairs of
`f`, R14; STATUS, DEG and CMD are views, R18 to R20); the rest is ghost state or the model's
own. -/
structure State where
  /-- F0..F7 (R12) -/
  f : Vector Elem 8
  /-- K, the scalar register (R16) -/
  k : Elem
  /-- T, the truth flag (R17) -/
  t : Bool
  /-- `STATUS.ERR`, the result code of the last command (R18, R109) -/
  err : BitVec 4
  /-- DEG, the result of the last FDEG (R19) -/
  deg : BitVec 8
  /-- TRACE, oldest event first; ghost (R25, R133) -/
  trace : List Event
  /-- which of the 30 bytes of each field register were written since reset; ghost (R27) -/
  wrF : Vector (BitVec 30) 8
  /-- which of the 30 bytes of K were written since reset; ghost (R27) -/
  wrK : BitVec 30
  /-- how many unspecified values were drawn; the model's own (`Config.unspecified240`) -/
  draws : Nat
  /-- the host's actions still to come, in its order (R39); the model's own -/
  host : List HostAction
  /-- the bytes the latest host read returned (R29); the model's own -/
  readData : List Byte
  /-- the answers the random-byte source will give, next first (R42); the model's own -/
  rng : List RngAnswer
  /-- the lengths of the `RngFill` requests made, oldest first (R42); the model's own -/
  rngRequests : List Nat
deriving DecidableEq, Repr

/-- The unit right after reset (R26, R123): T, ERR and DEG are 0 and the trace is empty. F0..F7 and
K are UNSPECIFIED in the spec; zero here is a DESIGN CHOICE (assumption 1), unsafe. No register
counts as written (R27), and no host action or random answer is pending. -/
def State.reset : State where
  f := Vector.replicate 8 0
  k := 0
  t := false
  err := 0
  deg := 0
  trace := []
  wrF := Vector.replicate 8 0
  wrK := 0
  draws := 0
  host := []
  readData := []
  rng := []
  rngRequests := []

end Sys2Proof.Machine
end

