-- ==== Sys2Proof/Machine/Flags.lean ====
section
/-! DEFINITION. The condition flag T, the error field and its codes, the DEG register, and their
register-space views STATUS and DEG (10_state.md R17 to R19, 60_exceptions.md R109). -/

set_option autoImplicit false

namespace Sys2Proof.Machine

/-- The error kinds of R109 and the code OK. -/
inductive ErrorKind where
  | ok
  | invalidArgument
  | privateKeyInvalid
  | remotePublicKeyInvalid
  | rngFailure
deriving DecidableEq, Repr

/-- `code(<ErrorKind>)` (R109). -/
def errorCode : ErrorKind → BitVec 4
  | .ok => 0
  | .invalidArgument => 1
  | .privateKeyInvalid => 2
  | .remotePublicKeyInvalid => 3
  | .rngFailure => 4

/-- `raise <ErrorKind>` (R108): the code goes to ERR and nothing else changes. -/
def State.raise (s : State) (e : ErrorKind) : State := { s with err := errorCode e }

/-- `ERR <- 0`, the end of a command that completes (R18). -/
def State.ok (s : State) : State := s.raise .ok

/-- `T <- b` (R17). -/
def State.setT (s : State) (b : Bool) : State := { s with t := b }

/-- `DEG <- d`, 8 bits (R19). -/
def State.setDeg (s : State) (d : Nat) : State := { s with deg := BitVec.ofNat 8 d }

/-- T of FISZ: all 240 bits are zero (R65). -/
def isZeroFlag (a : Elem) : Bool := a == 0

/-- T of FEQ: all 240 bits are equal (R66). -/
def isEqualFlag (a b : Elem) : Bool := a == b

/-- STATUS: T at bit 0, ERR at bits 11:8, every other bit 0 (R18). -/
def State.status (s : State) : Word := 0#20 ++ s.err ++ 0#7 ++ BitVec.ofBool s.t

/-- DEG as a 32-bit word: bits 31:8 read as 0 (R19). -/
def State.degWord (s : State) : Word := 0#24 ++ s.deg

end Sys2Proof.Machine
end

