-- ==== Sys2Proof/Machine/Operands.lean ====
section
/-! DEFINITION. The operands a command names (30_encoding.md R46, R47): field registers, point
registers as pairs of them, K, and the immediate. A meaning takes its operands from the state
before it writes anything, which is the latching of R46. -/

set_option autoImplicit false

namespace Sys2Proof.Machine

/-- `F[n]` (R8, R12). -/
def State.freg (s : State) (n : FReg) : Elem := s.f[n]

/-- The field register that holds the x coordinate of `Pk`: `F[2k]` (R14). -/
def xReg (k : PReg) : FReg := ⟨2 * k.val, by omega⟩

/-- The field register that holds the y coordinate of `Pk`: `F[2k+1]` (R14). -/
def yReg (k : PReg) : FReg := ⟨2 * k.val + 1, by omega⟩

/-- `P[k]` = (`F[2k]`, `F[2k+1]`) (R8, R14). -/
def State.preg (s : State) (k : PReg) : Point := ⟨s.freg (xReg k), s.freg (yReg k)⟩

/-- `imm` as SMUL uses it: unsigned, not scaled (R47). -/
def immWidth (bw : BitVec 12) : Nat := bw.toNat

end Sys2Proof.Machine
end

