-- ==== Sys2Proof/Machine/Ops.lean ====
section
/-! DEFINITION. The shared operations: writing registers, drawing unspecified values, the ghost trace,
the random-byte port (20_memory.md R42), the bytes of the register space (R30 to R35) and its
access rules (R29, R36), the outcome of an illegal command (R52) and the reset event (R122). -/

set_option autoImplicit false

namespace Sys2Proof.Machine

/-! ### Registers -/

/-- `F[n] <- v`; the register counts as written whole (R8, R27). -/
def State.setF (s : State) (n : FReg) (v : Elem) : State :=
  { s with f := s.f.set n v, wrF := s.wrF.set n (BitVec.allOnes 30) }

/-- `P[k] <- (x, y)`: both halves of the pair (R8, R14). -/
def State.setP (s : State) (k : PReg) (p : Point) : State :=
  (s.setF (xReg k) p.x).setF (yReg k) p.y

/-- `K <- v`; K counts as written whole (R16, R27). -/
def State.setK (s : State) (v : Elem) : State := { s with k := v, wrK := BitVec.allOnes 30 }

/-! ### Unspecified values (R8, U1 to U3) -/

/-- The n-th unspecified pair of coordinates: two draws. -/
def unspecifiedPoint (n : Nat) : Point := ⟨Config.unspecified240 n, Config.unspecified240 (n + 1)⟩

/-- `F[n] <- v`, or `F[n] <- UNSPECIFIED_240` where the spec gives no value (R64). -/
def State.setFOpen (s : State) (n : FReg) : Option Elem → State
  | some v => s.setF n v
  | none => { s.setF n (Config.unspecified240 s.draws) with draws := s.draws + 1 }

/-! ### Ghost trace (R133) -/

/-- `emit`, for the events of one command in order. -/
def State.emit (s : State) (es : List Event) : State := { s with trace := s.trace ++ es }

/-! ### Random-byte port (R42) -/

/-- The answer to the next `RngFill` request: the pending one, else a free value. -/
def State.rngAnswer (s : State) : RngAnswer :=
  match s.rng with
  | a :: _ => a
  | [] => Config.rngAnswer s.rngRequests.length

/-- One `RngFill(len)` request made and its answer consumed (R42, R117). -/
def State.rngFill (s : State) (len : Nat) : State :=
  { s with rng := s.rng.tail, rngRequests := s.rngRequests ++ [len] }

/-- `r[0] ‖ r[1] ‖ ... ‖ r[29]`: r[0] is the most significant byte (R98). -/
def scalarOfBytes (r : Vector Byte 30) : Elem :=
  r.toList.foldl (fun acc b => acc <<< 8 ||| b.setWidth 240) 0

/-! ### Bytes of a 240-bit register (R12, R31) -/

/-- Internal byte `j`: bits `8j+7 : 8j`. -/
def elemByte (v : Elem) (j : Nat) : Byte := v.extractLsb' (8 * j) 8

/-- Replace internal byte `j` and nothing else. -/
def setElemByte (v : Elem) (j : Nat) (b : Byte) : Elem :=
  (v &&& ~~~((0xFF : Elem) <<< (8 * j))) ||| (b.setWidth 240 <<< (8 * j))

/-! ### The data windows (R30 to R34) -/

/-- What a data-window offset addresses: an internal byte of a field register, an internal byte of
K, or a pad byte. -/
inductive Slot where
  | fByte (n : FReg) (j : Fin 30)
  | kByte (j : Fin 30)
  | pad
deriving DecidableEq, Repr

/-- Offset `d` of `FWIN[n]`: little-endian, then two pad bytes (R31, R32). -/
def fwinSlot (n : FReg) (d : Nat) : Slot :=
  if h : d < 30 then .fByte n ⟨d, h⟩ else .pad

/-- Offset `d` of `PWIN[k]`: x then y, each big-endian, then four pad bytes (R32, R33). -/
def pwinSlot (k : PReg) (d : Nat) : Slot :=
  if h : d < 30 then .fByte (xReg k) ⟨29 - d, by omega⟩
  else if d < 60 then .fByte (yReg k) ⟨59 - d, by omega⟩
  else .pad

/-- Offset `d` of `KWIN`: big-endian, then two pad bytes (R32, R34). -/
def kwinSlot (d : Nat) : Slot :=
  if d < 30 then .kByte ⟨29 - d, by omega⟩ else .pad

/-- The map of R30 over the data windows 0x000..0x21F; no slot elsewhere. -/
def slotOf (addr : Nat) : Option Slot :=
  if h : addr < 0x100 then some (fwinSlot ⟨addr / 32, by omega⟩ (addr % 32))
  else if h : addr < 0x200 then some (pwinSlot ⟨(addr - 0x100) / 64, by omega⟩ (addr % 64))
  else if addr < 0x220 then some (kwinSlot (addr - 0x200))
  else none

/-- The byte a slot reads as; a pad byte reads as 0 (R32). -/
def State.slotByte (s : State) : Slot → Byte
  | .fByte n j => elemByte (s.freg n) j
  | .kByte j => elemByte s.k j
  | .pad => 0

/-- Reading one byte of the register space; no byte outside the data windows (R29, R30). -/
def State.readByte (s : State) (addr : Nat) : Option Byte := (slotOf addr).map s.slotByte

/-- Writing a slot: exactly the eight bits it addresses, no check of canonical form, and nothing for
a pad byte (R31, R32, R37). The byte counts as written (R27). -/
def State.setSlot (s : State) (b : Byte) : Slot → State
  | .fByte n j =>
    { s with
      f := s.f.set n (setElemByte (s.freg n) j b)
      wrF := s.wrF.set n (s.wrF[n] ||| 1 <<< j.val) }
  | .kByte j => { s with k := setElemByte s.k j b, wrK := s.wrK ||| 1 <<< j.val }
  | .pad => s

/-! ### Control registers (R30, R35) -/

/-- Offset of CMD. -/
def cmdAddr : Nat := 0x300

/-- Offset of STATUS. -/
def statusAddr : Nat := 0x304

/-- Offset of DEG. -/
def degAddr : Nat := 0x308

/-- The word a control register reads as; CMD reads as 0 (R18, R19, R20). -/
def State.readWord (s : State) (addr : Nat) : Option Word :=
  if addr = cmdAddr then some 0
  else if addr = statusAddr then some s.status
  else if addr = degAddr then some s.degWord
  else none

/-- `MemRead(addr, n)` (R29): the bytes it returns, lowest address first; none where the access is
refused (R36). -/
def State.memRead (s : State) (addr n : Nat) : Option (List Byte) :=
  if n = 1 then (s.readByte addr).map fun b => [b]
  else if n = 4 then (s.readWord addr).map wordBytes
  else none

/-! ### Commands and reset -/

/-- The outcome of an illegal command: InvalidArgument and no other effect (R52, R110). -/
def State.illegalCommand (s : State) : State := s.raise .invalidArgument

/-- The state after the reset event (R26, R122, R123): F0..F7 and K hold unknown values, nine draws,
and no register counts as written. -/
def State.resetEvent (s : State) : State :=
  { s with
    f := Vector.ofFn fun n => Config.unspecified240 (s.draws + n.val)
    k := Config.unspecified240 (s.draws + 8)
    t := false
    err := 0
    deg := 0
    trace := []
    wrF := Vector.replicate 8 0
    wrK := 0
    draws := s.draws + 9 }

end Sys2Proof.Machine
end

