-- ==== Sys2Proof/Machine/Field.lean ====
section
/-! DEFINITION. The field commands FADD, FMUL, FSQR, FINV, FISZ, FEQ, FDEG (40_field.md section 3). -/

set_option autoImplicit false

namespace Sys2Proof.Machine

/-- FADD: exclusive-or of all 240 bits, no reduction, no event (R61, R134). -/
def execFadd (rd ra rb : FReg) (s : State) : Host.Outcome State Fault Refusal :=
  .next (s.setF rd (s.freg ra ^^^ s.freg rb)).ok

/-- FMUL: the product modulo the field polynomial; the aliasing `rd` = `rb` is an illegal command
(R51, R62). -/
def execFmul (rd ra rb : FReg) (s : State) : Host.Outcome State Fault Refusal :=
  .next (if rd = rb then s.illegalCommand
    else ((s.emit [.mul]).setF rd (fMul (s.freg ra) (s.freg rb))).ok)

/-- FSQR (R63). -/
def execFsqr (rd ra : FReg) (s : State) : Host.Outcome State Fault Refusal :=
  .next ((s.emit [.sqr]).setF rd (fSqr (s.freg ra))).ok

/-- FINV: an operand congruent to 0 leaves an unspecified value and no error (R64). -/
def execFinv (rd ra : FReg) (s : State) : Host.Outcome State Fault Refusal :=
  .next ((s.emit [.inv]).setFOpen rd (fInv (s.freg ra))).ok

/-- FISZ (R65). -/
def execFisz (ra : FReg) (s : State) : Host.Outcome State Fault Refusal :=
  .next (s.setT (isZeroFlag (s.freg ra))).ok

/-- FEQ (R66). -/
def execFeq (ra rb : FReg) (s : State) : Host.Outcome State Fault Refusal :=
  .next (s.setT (isEqualFlag (s.freg ra) (s.freg rb))).ok

/-- FDEG: DEG takes the degree, T tells the zero operand (R67). -/
def execFdeg (ra : FReg) (s : State) : Host.Outcome State Fault Refusal :=
  .next ((s.setDeg (degree (s.freg ra))).setT (isZeroFlag (s.freg ra))).ok

end Sys2Proof.Machine
end

