-- ==== Sys2Proof/Machine/PointRun.lean ====
section
/-! DEFINITION. One run of the point engine inside a command: the accumulator, the trace it emits and
the unspecified values it draws. PDBL, PADD, SMUL, KGEN and SSEC are runs of it
(41_point.md R79, R80, 42_scalar.md R88, 43_ecdh.md R98, R99). -/

set_option autoImplicit false

namespace Sys2Proof.Machine

/-- The accumulator is `none` once an unspecified pair was met: then "every later value of A and the
result are unspecified" (R88). `draws` counts as `State.draws` does. -/
structure PointRun where
  acc : Option Point
  events : List Event
  draws : Nat
deriving DecidableEq, Repr

/-- The pair the accumulator holds now; two fresh draws when it is unspecified. -/
def PointRun.value (r : PointRun) : Point := r.acc.getD (unspecifiedPoint r.draws)

/-- The draw counter after `PointRun.value`. -/
def PointRun.drawn (r : PointRun) : Nat := if r.acc.isSome then r.draws else r.draws + 2

/-- `emit(DBL); A <- PointDouble(A)` (R79, R88, R99). The field-level events of an unspecified
accumulator are those of the drawn pair (assumption 3). -/
def PointRun.double (r : PointRun) : PointRun where
  acc := r.acc.bind pointDouble
  events := r.events ++ .dbl :: doubleEvents r.value
  draws := r.drawn

/-- `emit(ADD); A <- PointAdd(A, Q)` (R80, R88). -/
def PointRun.add (r : PointRun) (q : Point) : PointRun where
  acc := r.acc.bind fun a => pointAdd a q
  events := r.events ++ .add :: addEvents r.value q
  draws := r.drawn

/-- A run that starts from the pair `p`. -/
def State.startRun (s : State) (p : Point) : PointRun := ⟨some p, [], s.draws⟩

/-- The end of a run: the trace takes the run's events and `P[k]` the accumulator, an unspecified
pair where the spec gives none (R74, R75, R88). -/
def State.endRun (s : State) (k : PReg) (r : PointRun) : State :=
  { (s.emit r.events).setP k r.value with draws := r.drawn }

/-- The loop of `ScalarMul` for the bit indices `n - 1` down to `0` of `k` (R88, R90). -/
def scalarLoop (p : Point) (k : Elem) : Nat → PointRun → PointRun
  | 0, r => r
  | i + 1, r => scalarLoop p k i (r.double.add (if k.getLsbD i then p else inf))

/-- `ScalarMul(P, k, bw)` as a run that emits and draws (R88). -/
def State.scalarRun (s : State) (p : Point) (k : Elem) (bw : Nat) : PointRun :=
  scalarLoop p k bw (s.startRun inf)

/-- `ScalarMul(P, k, bw)` as a value: `none` where it is unspecified (R88). -/
def scalarMul (p : Point) (k : Elem) (bw : Nat) : Option Point :=
  (scalarLoop p k bw ⟨some inf, [], 0⟩).acc

end Sys2Proof.Machine
end

