-- ==== Sys2Proof/Machine/Point.lean ====
section
/-! DEFINITION. The point commands PDBL, PADD, PVAL, PISZ (41_point.md section 3). -/

set_option autoImplicit false

namespace Sys2Proof.Machine

/-- PDBL, in place (R79). -/
def execPdbl (rd : PReg) (s : State) : Host.Outcome State Fault Refusal :=
  .next (s.endRun rd (s.startRun (s.preg rd)).double).ok

/-- PADD: `Pd` plus `Pa`, into `Pd` (R80). -/
def execPadd (rd ra : PReg) (s : State) : Host.Outcome State Fault Refusal :=
  .next (s.endRun rd ((s.startRun (s.preg rd)).add (s.preg ra))).ok

/-- PVAL (R81). -/
def execPval (ra : PReg) (s : State) : Host.Outcome State Fault Refusal :=
  .next ((s.emit (validEvents (s.preg ra))).setT (pointValid (s.preg ra))).ok

/-- PISZ (R82). -/
def execPisz (ra : PReg) (s : State) : Host.Outcome State Fault Refusal :=
  .next (s.setT (pointIsZero (s.preg ra))).ok

end Sys2Proof.Machine
end

