-- ==== Sys2Proof/Machine/Protocol.lean ====
section
/-! DEFINITION. The ECDH protocol commands KGEN and SSEC (43_ecdh.md section 3). -/

set_option autoImplicit false

namespace Sys2Proof.Machine

/-- KGEN for a generator `g` and the source's answer `a`, its request already made: on failure
RngFailure and nothing else, else K takes the bytes and `Pd` the multiple of `g` (R98). -/
def State.generateKeyPair (s : State) (rd : PReg) (g : Point) (a : RngAnswer) : State :=
  if a.ok then
    ((s.setK (scalarOfBytes a.bytes)).endRun rd
      (s.scalarRun g (scalarOfBytes a.bytes) Config.bitWidth)).ok
  else s.raise .rngFailure

/-- KGEN: one `RngFill(30)` request, and the constant G (R97, R98). -/
def execKgen (rd : PReg) (s : State) : Host.Outcome State Fault Refusal :=
  .next ((s.rngFill Config.privBytes).generateKeyPair rd Config.generator.point s.rngAnswer)

/-- The run of SSEC after its key check: the scalar multiplication, then `COF_LOG2` = 2 cofactor
doublings (R99, R100). -/
def State.secretRun (s : State) (q : Point) : PointRun :=
  (s.scalarRun q s.k Config.bitWidth).double.double

/-- SSEC: `INF` or an invalid remote key is RemotePublicKeyInvalid and leaves `Pd`; the events of
the validity check come first (R99, R134). -/
def execSsec (rd ra : PReg) (s : State) : Host.Outcome State Fault Refusal :=
  .next (if pointIsZero (s.preg ra) || !pointValid (s.preg ra)
    then (s.emit (validEvents (s.preg ra))).raise .remotePublicKeyInvalid
    else ((s.emit (validEvents (s.preg ra))).endRun rd (s.secretRun (s.preg ra))).ok)

end Sys2Proof.Machine
end

