-- ==== Sys2Proof/Machine/Scalar.lean ====
section
/-! DEFINITION. The scalar multiplier's command SMUL (42_scalar.md R89). -/

set_option autoImplicit false

namespace Sys2Proof.Machine

/-- SMUL: `Pd` takes `ScalarMul(Pa, K, bw)`; a width above 240 is an illegal command (R50, R89). -/
def execSmul (rd ra : PReg) (bw : BitVec 12) (s : State) : Host.Outcome State Fault Refusal :=
  .next (if Config.maxBitWidth < immWidth bw then s.illegalCommand
    else (s.endRun rd (s.scalarRun (s.preg ra) s.k (immWidth bw))).ok)

end Sys2Proof.Machine
end

