-- ==== Sys2Proof/Machine/Dispatch.lean ====
section
/-! DEFINITION. The meaning of each command (30_encoding.md R48). -/

namespace Sys2Proof.Machine

def exec (i : Instr) (s : State) : Host.Outcome State Fault Refusal :=
  match i with
  | .fadd rd ra rb => Sys2Proof.Machine.execFadd rd ra rb s
  | .fmul rd ra rb => Sys2Proof.Machine.execFmul rd ra rb s
  | .fsqr rd ra => Sys2Proof.Machine.execFsqr rd ra s
  | .finv rd ra => Sys2Proof.Machine.execFinv rd ra s
  | .fisz ra => Sys2Proof.Machine.execFisz ra s
  | .feq ra rb => Sys2Proof.Machine.execFeq ra rb s
  | .fdeg ra => Sys2Proof.Machine.execFdeg ra s
  | .pdbl rd => Sys2Proof.Machine.execPdbl rd s
  | .padd rd ra => Sys2Proof.Machine.execPadd rd ra s
  | .pval ra => Sys2Proof.Machine.execPval ra s
  | .pisz ra => Sys2Proof.Machine.execPisz ra s
  | .smul rd ra bw => Sys2Proof.Machine.execSmul rd ra bw s
  | .kgen rd => Sys2Proof.Machine.execKgen rd s
  | .ssec rd ra => Sys2Proof.Machine.execSsec rd ra s

end Sys2Proof.Machine
end

