-- ==== Sys2Proof/Machine/Bus.lean ====
section
/-! DEFINITION. The host's actions on the unit (10_state.md R20, 20_memory.md R29, R36, R37, R39):
reads, writes, the command a write to CMD starts, and the reset event. -/

set_option autoImplicit false

namespace Sys2Proof.Machine

/-- The write of a command word to CMD, four bytes (R20, R29). -/
def cmdWrite (w : Word) : HostAction := .write cmdAddr (wordBytes w)

/-- Run the command the four bytes written to CMD hold; an illegal word is InvalidArgument (R20,
R52, R110). -/
def runCommand (bs : List Byte) (s : State) : Host.Outcome State Fault Refusal :=
  match decodeBytes bs with
  | .ok i => exec i s
  | .error _ => .next s.illegalCommand

/-- `MemRead`: the bytes go to the host and nothing else changes (R29, R37); a refused read has no
step (R36). -/
def busRead (addr n : Nat) (s : State) : Host.Outcome State Fault Refusal :=
  match s.memRead addr n with
  | some bs => .next { s with readData := bs }
  | none => .fault (.busError false addr n)

/-- `MemWrite` (R29): one byte of a data window, or four bytes to CMD, which run a command; any
other write is refused and has no step (R36). -/
def busWrite (addr : Nat) (bs : List Byte) (s : State) : Host.Outcome State Fault Refusal :=
  match bs with
  | [b] =>
    match slotOf addr with
    | some slot => .next (s.setSlot b slot)
    | none => .fault (.busError true addr 1)
  | _ =>
    if addr = cmdAddr ∧ bs.length = 4 then runCommand bs s
    else .fault (.busError true addr bs.length)

/-- One action of the host stream (R39), or the reset event (R122). -/
def hostAction (a : HostAction) (s : State) : Host.Outcome State Fault Refusal :=
  match a with
  | .read addr n => busRead addr n s
  | .write addr bs => busWrite addr bs s
  | .reset => .next s.resetEvent

/-- One step of the machine: the next action of the host takes effect, whole (R38, R39); with none
pending the unit is idle and keeps all state (R120). -/
def stepHost (s : State) : Host.Outcome State Fault Refusal :=
  match s.host with
  | [] => .next s
  | a :: rest => hostAction a { s with host := rest }

end Sys2Proof.Machine
end

