-- ==== Sys2Proof/Machine/Step.lean ====
section
/-! DEFINITION. The step of the machine, and where it takes its next command from. -/

set_option autoImplicit false

namespace Sys2Proof.Machine

/-- One step: the host's next action, a command from start to end among them (R9, R39). -/
def step (s : State) : Host.Outcome State Fault Refusal := stepHost s

/-- `s` with the write of the command word to CMD as the host's next action: the unit has no
instruction memory (R22), so a command comes from the host stream (assumption 4). -/
def State.withFetchWord (s : State) (nbits w : Nat) : State :=
  { s with host := cmdWrite (tableWord nbits w) :: s.host }

end Sys2Proof.Machine
end

