-- ==== Sys2Proof/Safety.lean ====
section
/-! DEFINITION. What counts as a safe run, in the terms the claims use: the codes and values the unit
can hold (60_exceptions.md R109, 10_state.md R19), what a host must have written before it may rely
on a result (R27, 70_reset_and_hazards.md R124), and what a command leaves alone (R21). -/

set_option autoImplicit false

namespace Sys2Proof.Machine

/-! ### The values of the result registers -/

/-- The codes a command produces: OK, InvalidArgument, RemotePublicKeyInvalid, RngFailure; never
PrivateKeyInvalid, never 5..15 (R109, R112). -/
def producedCode (e : BitVec 4) : Prop :=
  e = errorCode .ok ∨ e = errorCode .invalidArgument ∨
    e = errorCode .remotePublicKeyInvalid ∨ e = errorCode .rngFailure

/-- ERR holds a code the unit produces (R109), and DEG a bit index of a field register (R19). -/
def State.Inv (s : State) : Prop := producedCode s.err ∧ s.deg.toNat ≤ 239

/-- Every field register holds a canonical value (R13). -/
def State.allCanonical (s : State) : Prop := ∀ n, canonical (s.freg n) = true

/-! ### What the host must have written (R27, R124) -/

/-- All 30 bytes of `F[n]` were written since reset. -/
def State.fullF (s : State) (n : FReg) : Bool := s.wrF[n] == BitVec.allOnes 30

/-- Both coordinates of `P[k]` were written since reset. -/
def State.fullP (s : State) (k : PReg) : Bool := s.fullF (xReg k) && s.fullF (yReg k)

/-- All 30 bytes of K were written since reset. -/
def State.fullK (s : State) : Bool := s.wrK == BitVec.allOnes 30

/-- The table of R124: every register the command reads holds a value. -/
def State.ready (s : State) : Instr → Bool
  | .fadd _ ra rb => s.fullF ra && s.fullF rb
  | .fmul _ ra rb => s.fullF ra && s.fullF rb
  | .fsqr _ ra => s.fullF ra
  | .finv _ ra => s.fullF ra
  | .fisz ra => s.fullF ra
  | .feq ra rb => s.fullF ra && s.fullF rb
  | .fdeg ra => s.fullF ra
  | .pdbl rd => s.fullP rd
  | .padd rd ra => s.fullP rd && s.fullP ra
  | .pval ra => s.fullP ra
  | .pisz ra => s.fullP ra
  | .smul _ ra _ => s.fullP ra && s.fullK
  | .kgen _ => true
  | .ssec _ ra => s.fullP ra && s.fullK

/-- The byte a slot addresses was written since reset; a pad byte always reads as 0 (R32). -/
def State.slotWritten (s : State) : Slot → Bool
  | .fByte n j => s.wrF[n].getLsbD j
  | .kByte j => s.wrK.getLsbD j
  | .pad => true

/-- A host action relies on nothing unwritten: a window read is of a written byte, and a legal
command is ready (R27, R124). -/
def State.safeAction (s : State) : HostAction → Bool
  | .read addr _ => (slotOf addr).all s.slotWritten
  | .write addr bs =>
    if addr = cmdAddr then
      match decodeBytes bs with
      | .ok i => s.ready i
      | .error _ => true
    else true
  | .reset => true

/-- The next step relies on nothing unwritten. -/
def State.safeStep (s : State) : Bool := s.host.head?.all s.safeAction

/-- `s` and `t` differ at most in register bytes that were never written since reset. -/
def State.agree (s t : State) : Prop :=
  (∀ n (j : Fin 30), s.wrF[n].getLsbD j = true → elemByte (s.freg n) j = elemByte (t.freg n) j) ∧
  (∀ j : Fin 30, s.wrK.getLsbD j = true → elemByte s.k j = elemByte t.k j) ∧
  t = { s with f := t.f, k := t.k }

/-! ### What a command leaves alone (R21) -/

/-- Every field register outside `dst` keeps its value, and every byte of the register space that is
no byte of `dst` and no byte of K reads as before. -/
def State.keepsF (dst : List FReg) (s t : State) : Prop :=
  (∀ n, n ∉ dst → t.freg n = s.freg n ∧ t.wrF[n] = s.wrF[n]) ∧
  ∀ addr, (∀ n ∈ dst, ∀ j, slotOf addr ≠ some (.fByte n j)) →
    (∀ j, slotOf addr ≠ some (.kByte j)) → t.readByte addr = s.readByte addr

/-- K keeps its value, and every byte of `KWIN` reads as before. -/
def State.keepsK (s t : State) : Prop :=
  t.k = s.k ∧ t.wrK = s.wrK ∧
  ∀ addr j, slotOf addr = some (.kByte j) → t.readByte addr = s.readByte addr

/-- The host's pending actions, what its latest read returned, and the random-byte port are as
before: no request is made. -/
def State.keepsEnv (s t : State) : Prop :=
  t.host = s.host ∧ t.readData = s.readData ∧ t.rng = s.rng ∧ t.rngRequests = s.rngRequests

/-- The point-level events of a trace (R133). -/
def pointLevel (es : List Event) : List Event := es.filter fun e => e == .dbl || e == .add

/-- `(DBL ADD)^n` (R135). -/
def dblAdd : Nat → List Event
  | 0 => []
  | n + 1 => .dbl :: .add :: dblAdd n

end Sys2Proof.Machine
end

