-- ==== Sys2Proof/Certificates/Slice0/Obligations.lean ====
section
/-! DEFINITION. The statements about the model, from the numbered rules of the spec, in the order of
its files: encoding, field engine, point engine, scalar multiplier, protocol layer, host access,
reset, and the whole machine. -/

set_option autoImplicit false

open Sys2Proof Sys2Proof.Machine

/-! ### Encoding -/

/-- Encoding then decoding gives back every legal command, every operand at every value (R45, R48,
R53). -/
def Obligations.DecodeOfEncodeIsTheCommand : Prop :=
  ∀ i : Instr, i.wf = true → decode (encode i) = .ok i

/-- A word decodes to at most one command and is that command's only word (R44, R45). -/
def Obligations.LegalWordIsTheEncodingOfItsCommand : Prop :=
  ∀ (w : Word) (i : Instr), decode w = .ok i → encode i = w ∧ i.wf = true

/-- The sixteen assembly examples of R53 decode to the commands they stand for. -/
def Obligations.SpecExampleWordsDecode : Prop :=
  decode 0x01201000 = .ok (.fadd 2 0 1) ∧ decode 0x02201000 = .ok (.fmul 2 0 1) ∧
  decode 0x02001000 = .ok (.fmul 0 0 1) ∧ decode 0x03330000 = .ok (.fsqr 3 3) ∧
  decode 0x04100000 = .ok (.finv 1 0) ∧ decode 0x05070000 = .ok (.fisz 7) ∧
  decode 0x06025000 = .ok (.feq 2 5) ∧ decode 0x07040000 = .ok (.fdeg 4) ∧
  decode 0x10100000 = .ok (.pdbl 1) ∧ decode 0x11010000 = .ok (.padd 0 1) ∧
  decode 0x12020000 = .ok (.pval 2) ∧ decode 0x13030000 = .ok (.pisz 3) ∧
  decode 0x200100E9 = .ok (.smul 0 1 233) ∧ decode 0x20220003 = .ok (.smul 2 2 3) ∧
  decode 0x30000000 = .ok (.kgen 0) ∧ decode 0x31210000 = .ok (.ssec 2 1)

/-- The illegal words are exactly those of R49 (reserved opcode), R50 (index out of range, unused
field not zero, `imm`) and R51 (FMUL with rd = rb). -/
def Obligations.IllegalWordsAreThoseOfTheRules : Prop :=
  ∀ w : Word,
    let op := (opField w).toNat
    let rd := (rdField w).toNat
    let ra := (raField w).toNat
    let rb := (rbField w).toNat
    let imm := (immField w).toNat
    let limit := if op < 0x10 then 8 else 4
    let usesRd := op ∈ [0x01, 0x02, 0x03, 0x04, 0x10, 0x11, 0x20, 0x30, 0x31]
    let usesRa := op ∉ [0x10, 0x30]
    let usesRb := op ∈ [0x01, 0x02, 0x06]
    (∀ i, decode w ≠ .ok i) ↔
      (op = 0x00 ∨ (0x08 ≤ op ∧ op ≤ 0x0F) ∨ (0x14 ≤ op ∧ op ≤ 0x1F) ∨
        (0x21 ≤ op ∧ op ≤ 0x2F) ∨ 0x32 ≤ op) ∨
      (usesRd ∧ limit ≤ rd) ∨ (usesRa ∧ limit ≤ ra) ∨ (usesRb ∧ limit ≤ rb) ∨
      (¬usesRd ∧ rd ≠ 0) ∨ (¬usesRa ∧ ra ≠ 0) ∨ (¬usesRb ∧ rb ≠ 0) ∨
      (op ≠ 0x20 ∧ imm ≠ 0) ∨ (op = 0x20 ∧ 240 < imm) ∨
      (op = 0x02 ∧ rd = rb)

/-- A write of a legal word to CMD is one step that runs its command on the state the write was
taken from (R20, R41); the command comes off the host's stream first, which is the model's choice
(assumption 4). -/
def Obligations.StepRunsTheCommandWrittenToCmd : Prop :=
  ∀ (i : Instr) (s : State) (rest : List HostAction),
    i.wf = true → s.host = .write cmdAddr (wordBytes (encode i)) :: rest →
      step s = exec i { s with host := rest }

/-- A write of an illegal word to CMD sets ERR to 1 and has no other effect (R52, R110). -/
def Obligations.IllegalWordSetsErrAndNothingElse : Prop :=
  ∀ (w : Word) (s : State) (rest : List HostAction),
    (∀ i, decode w ≠ .ok i) → s.host = .write cmdAddr (wordBytes w) :: rest →
      step s = .next { s with host := rest, err := 1 }

/-! ### Field functions -/

/-- `ClMul` (R56): bit n is the parity of the pairs i + j = n with a[j] = b[i] = 1; it is commutative,
1 is neutral and 0 absorbs. -/
def Obligations.CarrylessProductBits : Prop :=
  ∀ a b : Elem,
    (∀ n < 479, (clMul a b).getLsbD n =
      decide (((List.range 240).countP fun i =>
        b.getLsbD i && decide (i ≤ n) && a.getLsbD (n - i)) % 2 = 1)) ∧
    clMul a b = clMul b a ∧ clMul a 1 = a.setWidth 479 ∧ clMul a 0 = 0

/-- `Reduce` (R57): the result is canonical and congruent to the operand modulo x^233 + x^74 + 1 as a
polynomial over GF(2), which makes it the remainder; a canonical value is its own. -/
def Obligations.ReduceIsTheRemainder : Prop :=
  (∀ (w : Nat) (c : BitVec w),
    canonical (reduce c) = true ∧
    ∃ q : Polynomial (ZMod 2),
      (∑ i ∈ Finset.range w, if c.getLsbD i then (Polynomial.X : Polynomial (ZMod 2)) ^ i else 0) =
        q * (Polynomial.X ^ 233 + Polynomial.X ^ 74 + 1) +
        ∑ i ∈ Finset.range 240, if (reduce c).getLsbD i then Polynomial.X ^ i else 0) ∧
  ∀ a : Elem, canonical a = true → reduce a = a

/-- `FSqr` (R59): `Spread` puts bit i at 2i and 0 at the odd places, equals `ClMul(a, a)`, and the
square is the product of a value with itself. -/
def Obligations.SquareIsTheProductWithItself : Prop :=
  ∀ a : Elem,
    (∀ i < 240, (spread a).getLsbD (2 * i) = a.getLsbD i ∧
      (spread a).getLsbD (2 * i + 1) = false) ∧
    spread a = clMul a a ∧ fSqr a = reduce (spread a) ∧ fSqr a = fMul a a

/-- `FMul` on all 240-bit values, canonical or not (R58, R71): the product of the elements the
operands are congruent to, commutative, associative, distributive over exclusive-or, with 1 neutral
up to reduction and 0 absorbing. -/
def Obligations.ProductIsFieldMultiplication : Prop :=
  ∀ a b c : Elem,
    fMul a b = reduce (clMul a b) ∧ canonical (fMul a b) = true ∧
    fMul (reduce a) (reduce b) = fMul a b ∧
    fMul a b = fMul b a ∧ fMul (fMul a b) c = fMul a (fMul b c) ∧
    fMul a (b ^^^ c) = fMul a b ^^^ fMul a c ∧ fMul a 1 = reduce a ∧ fMul a 0 = 0

/-- The quotient is a field (R72): a product is zero only when a factor is congruent to 0. -/
def Obligations.ProductIsZeroOnlyWithAZeroFactor : Prop :=
  ∀ a b : Elem, fMul a b = 0 ↔ reduce a = 0 ∨ reduce b = 0

/-- `FInv` (R60): for a not congruent to 0, the unique canonical b with `FMul(a, b) = 1`; it is not
defined exactly when a is congruent to 0. -/
def Obligations.InverseIsTheUniqueInverse : Prop :=
  ∀ a : Elem,
    (fInv a = none ↔ reduce a = 0) ∧
    (reduce a ≠ 0 → ∃ b, fInv a = some b ∧ canonical b = true ∧ fMul a b = 1 ∧
      ∀ c, canonical c = true → fMul a c = 1 → c = b)

/-- Field closure (R69): on canonical operands sum, product, square and inverse are canonical. -/
def Obligations.CanonicalOperandsGiveCanonicalResults : Prop :=
  ∀ a b : Elem, canonical a = true → canonical b = true →
    canonical (a ^^^ b) = true ∧ canonical (fMul a b) = true ∧ canonical (fSqr a) = true ∧
    (a ≠ 0 → ∃ c, fInv a = some c ∧ canonical c = true)

/-! ### Field commands -/

/-- FADD (R61): completes in every state with the exclusive-or of all 240 bits in Fd, whatever
registers coincide, and changes nothing else but ERR; Fd counts as written (R27). -/
def Obligations.FaddResult : Prop :=
  ∀ (rd ra rb : FReg) (s : State), opField (encode (.fadd rd ra rb)) = 0x01 ∧
    ∃ t, exec (.fadd rd ra rb) s = .next t ∧
      t.freg rd = s.freg ra ^^^ s.freg rb ∧ t.fullF rd = true ∧ t.err = 0 ∧
      (canonical (s.freg ra) = true → canonical (s.freg rb) = true →
        canonical (t.freg rd) = true) ∧
      (ra = rb → t.freg rd = 0) ∧
      t.t = s.t ∧ t.deg = s.deg ∧ t.trace = s.trace ∧ t.draws = s.draws ∧
      s.keepsF [rd] t ∧ s.keepsK t ∧ s.keepsEnv t

/-- FMUL (R62): for rd ≠ rb it completes with the reduced product in Fd and one `MUL` event and
changes nothing else but ERR, and Fd counts as written (R27); for rd = rb it is an illegal command
(R51) that only sets ERR. -/
def Obligations.FmulResult : Prop :=
  ∀ (rd ra rb : FReg) (s : State), opField (encode (.fmul rd ra rb)) = 0x02 ∧
    (rd ≠ rb → ∃ t, exec (.fmul rd ra rb) s = .next t ∧
      t.freg rd = reduce (clMul (s.freg ra) (s.freg rb)) ∧ canonical (t.freg rd) = true ∧
      t.fullF rd = true ∧
      (ra = rb → t.freg rd = fSqr (s.freg ra)) ∧
      (s.freg ra = 0 ∨ s.freg rb = 0 → t.freg rd = 0) ∧
      (s.freg rb = 1 → t.freg rd = reduce (s.freg ra)) ∧
      t.err = 0 ∧ t.t = s.t ∧ t.deg = s.deg ∧ t.trace = s.trace ++ [.mul] ∧ t.draws = s.draws ∧
      s.keepsF [rd] t ∧ s.keepsK t ∧ s.keepsEnv t) ∧
    (rd = rb → exec (.fmul rd ra rb) s = .next { s with err := 1 })

/-- FSQR (R63): completes with the square, always canonical, in Fd and one `SQR` event, and changes
nothing else but ERR; Fd counts as written (R27). -/
def Obligations.FsqrResult : Prop :=
  ∀ (rd ra : FReg) (s : State), opField (encode (.fsqr rd ra)) = 0x03 ∧
    ∃ t, exec (.fsqr rd ra) s = .next t ∧
      t.freg rd = reduce (spread (s.freg ra)) ∧ t.freg rd = fMul (s.freg ra) (s.freg ra) ∧
      canonical (t.freg rd) = true ∧ t.fullF rd = true ∧ t.err = 0 ∧
      t.t = s.t ∧ t.deg = s.deg ∧ t.trace = s.trace ++ [.sqr] ∧ t.draws = s.draws ∧
      s.keepsF [rd] t ∧ s.keepsK t ∧ s.keepsEnv t

/-- FINV (R64): completes for every operand, ERR 0 and one `INV` event, with `FInv` of the operand in
Fd; for an operand congruent to 0 Fd holds an unspecified value, the next draw (the free value is
the model's form of it, assumption 2), and nothing else changes. Fd counts as written (R27; with an
unspecified value too, assumption 11). -/
def Obligations.FinvResult : Prop :=
  ∀ (rd ra : FReg) (s : State), opField (encode (.finv rd ra)) = 0x04 ∧
    ∃ t, exec (.finv rd ra) s = .next t ∧
      (reduce (s.freg ra) ≠ 0 →
        fInv (s.freg ra) = some (t.freg rd) ∧ canonical (t.freg rd) = true ∧
        t.draws = s.draws) ∧
      (reduce (s.freg ra) = 0 →
        t.freg rd = Config.unspecified240 s.draws ∧ t.draws = s.draws + 1) ∧
      t.fullF rd = true ∧ t.err = 0 ∧ t.t = s.t ∧ t.deg = s.deg ∧ t.trace = s.trace ++ [.inv] ∧
      s.keepsF [rd] t ∧ s.keepsK t ∧ s.keepsEnv t

/-- FISZ and FEQ (R65, R66): complete with T the bitwise zero test, or the bitwise equality, of the
operands, and change nothing else but ERR. -/
def Obligations.FiszAndFeqResult : Prop :=
  ∀ (ra rb : FReg) (s : State),
    opField (encode (.fisz ra)) = 0x05 ∧ opField (encode (.feq ra rb)) = 0x06 ∧
    (∃ t, exec (.fisz ra) s = .next t ∧
      (t.t = true ↔ ∀ i < 240, (s.freg ra).getLsbD i = false) ∧ t.err = 0 ∧
      t.deg = s.deg ∧ t.trace = s.trace ∧ t.draws = s.draws ∧
      s.keepsF [] t ∧ s.keepsK t ∧ s.keepsEnv t) ∧
    ∃ t, exec (.feq ra rb) s = .next t ∧
      (t.t = true ↔ ∀ i < 240, (s.freg ra).getLsbD i = (s.freg rb).getLsbD i) ∧
      (ra = rb → t.t = true) ∧ t.err = 0 ∧
      t.deg = s.deg ∧ t.trace = s.trace ∧ t.draws = s.draws ∧
      s.keepsF [] t ∧ s.keepsK t ∧ s.keepsEnv t

/-- FDEG (R67): completes with DEG the index of the highest set bit of all 240 and T = 0; for the zero
operand DEG = 0 and T = 1; nothing else changes but ERR. -/
def Obligations.FdegResult : Prop :=
  ∀ (ra : FReg) (s : State), opField (encode (.fdeg ra)) = 0x07 ∧
    ∃ t, exec (.fdeg ra) s = .next t ∧
      (s.freg ra ≠ 0 → t.t = false ∧ (s.freg ra).getLsbD t.deg.toNat = true ∧
        ∀ i < 240, t.deg.toNat < i → (s.freg ra).getLsbD i = false) ∧
      (s.freg ra = 0 → t.t = true ∧ t.deg = 0) ∧
      (canonical (s.freg ra) = true → t.deg.toNat ≤ 232) ∧
      t.err = 0 ∧ t.trace = s.trace ∧ t.draws = s.draws ∧
      s.keepsF [] t ∧ s.keepsK t ∧ s.keepsEnv t

/-- The additive laws on the unit (R70), for all 240-bit values: adding a register to itself gives 0,
and adding the same second operand twice gives back the first. -/
def Obligations.AddingTwiceCancels : Prop :=
  ∀ (rd ra rb : FReg) (s : State),
    (∃ t, exec (.fadd rd ra ra) s = .next t ∧ t.freg rd = 0) ∧
    (rd ≠ rb → ∃ t u, exec (.fadd rd ra rb) s = .next t ∧ exec (.fadd rd rd rb) t = .next u ∧
      u.freg rd = s.freg ra)

/-! ### Point commands -/

/-- PDBL (R74, R79): completes for every pair; `INF` when y is bitwise 0 (no field event), two
unspecified coordinates when x is congruent to 0 and y is not 0 (`INV` alone), else the tangent
formula with one inversion; only the pair, ERR and the trace change, and the pair counts as written
(R27). That the unspecified pair is the next two draws (assumption 2) and counts as written
(assumption 11) is the model's form of it. -/
def Obligations.PdblResult : Prop :=
  ∀ (rd : PReg) (s : State), opField (encode (.pdbl rd)) = 0x10 ∧
    ∃ t, exec (.pdbl rd) s = .next t ∧ t.err = 0 ∧ t.t = s.t ∧ t.deg = s.deg ∧
      t.fullP rd = true ∧ s.keepsF [xReg rd, yReg rd] t ∧ s.keepsK t ∧ s.keepsEnv t ∧
      let p := s.preg rd
      (p.y = 0 → t.preg rd = inf ∧ t.trace = s.trace ++ [.dbl] ∧ t.draws = s.draws) ∧
      (p.y ≠ 0 → reduce p.x = 0 →
        t.preg rd = ⟨Config.unspecified240 s.draws, Config.unspecified240 (s.draws + 1)⟩ ∧
        t.trace = s.trace ++ [.dbl, .inv] ∧ t.draws = s.draws + 2) ∧
      (p.y ≠ 0 → reduce p.x ≠ 0 → ∃ xi l x',
        fInv p.x = some xi ∧ l = p.x ^^^ fMul p.y xi ∧ x' = fSqr l ^^^ l ∧
        t.preg rd = ⟨x', fSqr p.x ^^^ fMul l x' ^^^ x'⟩ ∧
        t.trace = s.trace ++ [.dbl, .inv, .mul, .sqr, .sqr, .mul] ∧ t.draws = s.draws)

/-- PADD (R75, R80): completes for every two pairs, by the first case that matches: q = `INF` leaves
p, p = `INF` copies q, p = q doubles, equal x gives `INF`, else the chord formula, whose result is
unspecified when the difference of the x coordinates is congruent to 0; only the destination pair,
ERR and the trace change, and the pair counts as written (R27). That an unspecified pair is the next
two draws (assumption 2) and counts as written (assumption 11) is the model's form of it. -/
def Obligations.PaddResult : Prop :=
  ∀ (rd ra : PReg) (s : State), opField (encode (.padd rd ra)) = 0x11 ∧
    ∃ t, exec (.padd rd ra) s = .next t ∧ t.err = 0 ∧ t.t = s.t ∧ t.deg = s.deg ∧
      t.fullP rd = true ∧ s.keepsF [xReg rd, yReg rd] t ∧ s.keepsK t ∧ s.keepsEnv t ∧
      let p := s.preg rd
      let q := s.preg ra
      (q = inf → t.preg rd = p ∧ t.trace = s.trace ++ [.add] ∧ t.draws = s.draws) ∧
      (q ≠ inf → p = inf → t.preg rd = q ∧ t.trace = s.trace ++ [.add] ∧ t.draws = s.draws) ∧
      (q ≠ inf → p ≠ inf → p = q →
        t.trace = s.trace ++ .add :: doubleEvents p ∧
        (∀ r, pointDouble p = some r → t.preg rd = r ∧ t.draws = s.draws) ∧
        (pointDouble p = none →
          t.preg rd = unspecifiedPoint s.draws ∧ t.draws = s.draws + 2)) ∧
      (q ≠ inf → p ≠ inf → p ≠ q → p.x = q.x →
        t.preg rd = inf ∧ t.trace = s.trace ++ [.add] ∧ t.draws = s.draws) ∧
      (q ≠ inf → p ≠ inf → p.x ≠ q.x → reduce (p.x ^^^ q.x) = 0 →
        t.preg rd = unspecifiedPoint s.draws ∧ t.trace = s.trace ++ [.add, .inv] ∧
        t.draws = s.draws + 2) ∧
      (q ≠ inf → p ≠ inf → p.x ≠ q.x → reduce (p.x ^^^ q.x) ≠ 0 → ∃ di l xr,
        fInv (p.x ^^^ q.x) = some di ∧ l = fMul (p.y ^^^ q.y) di ∧
        xr = fSqr l ^^^ l ^^^ p.x ^^^ q.x ∧
        t.preg rd = ⟨xr, fMul l (p.x ^^^ xr) ^^^ p.y ^^^ xr⟩ ∧
        t.trace = s.trace ++ [.add, .inv, .mul, .sqr, .mul] ∧ t.draws = s.draws)

/-- PVAL and PISZ (R76, R77, R81, R82): complete with T the validity of the pair (`INF`, or both
coordinates canonical and on y² + xy = x³ + 1), or whether all 480 bits are zero; no register
changes. -/
def Obligations.PvalAndPiszResult : Prop :=
  ∀ (ra : PReg) (s : State),
    opField (encode (.pval ra)) = 0x12 ∧ opField (encode (.pisz ra)) = 0x13 ∧
    let p := s.preg ra
    let reduced := p.x >>> 233 = 0 ∧ p.y >>> 233 = 0
    (∃ t, exec (.pval ra) s = .next t ∧
      (t.t = true ↔ p = inf ∨
        (reduced ∧ fSqr p.y ^^^ fMul p.x p.y = fMul (fSqr p.x) p.x ^^^ 1)) ∧
      (p = inf ∨ ¬reduced → t.trace = s.trace) ∧
      (p ≠ inf → reduced → t.trace = s.trace ++ [.sqr, .mul, .sqr, .mul]) ∧
      t.err = 0 ∧ t.deg = s.deg ∧ t.draws = s.draws ∧
      s.keepsF [] t ∧ s.keepsK t ∧ s.keepsEnv t) ∧
    ∃ t, exec (.pisz ra) s = .next t ∧ (t.t = true ↔ p = inf) ∧
      t.err = 0 ∧ t.deg = s.deg ∧ t.trace = s.trace ∧ t.draws = s.draws ∧
      s.keepsF [] t ∧ s.keepsK t ∧ s.keepsEnv t

/-- CRYPTX's group laws on the unit (R84): adding `INF` to a pair, or a pair to `INF`, gives the pair,
valid or not; adding an equal pair gives what PDBL gives, where that is specified. -/
def Obligations.GroupIdentityAndDoublingConsistency : Prop :=
  ∀ (rd ra : PReg) (s : State),
    (s.preg ra = inf → ∃ t, exec (.padd rd ra) s = .next t ∧ t.preg rd = s.preg rd) ∧
    (s.preg rd = inf → ∃ t, exec (.padd rd ra) s = .next t ∧ t.preg rd = s.preg ra) ∧
    (s.preg ra = s.preg rd → ∃ t u, exec (.padd rd ra) s = .next t ∧
      exec (.pdbl rd) s = .next u ∧
      ((s.preg rd).y = 0 ∨ reduce (s.preg rd).x ≠ 0 → t.preg rd = u.preg rd))

/-- On valid points doubling and addition give valid points, and the only valid point on which either
has no value is (0, 1), doubled (R83, R86). -/
def Obligations.PointFunctionsStayOnTheCurve : Prop :=
  ∀ p q : Point, pointValid p = true → pointValid q = true →
    (∀ r, pointDouble p = some r → pointValid r = true) ∧
    (∀ r, pointAdd p q = some r → pointValid r = true) ∧
    (pointDouble p = none ↔ p = ⟨0, 1⟩) ∧
    (pointAdd p q = none ↔ p = ⟨0, 1⟩ ∧ q = ⟨0, 1⟩)

/-- The points of small order (R85): (0, 1) and (1, 0) are the only curve points with x = 0 and with
y = 0, and the eight results of the rule on them and (1, 1). -/
def Obligations.SmallOrderPoints : Prop :=
  (∀ p, pointValid p = true → p.x = 0 → p = inf ∨ p = ⟨0, 1⟩) ∧
  (∀ p, pointValid p = true → p.y = 0 → p = inf ∨ p = ⟨1, 0⟩) ∧
  pointValid ⟨0, 1⟩ = true ∧ pointValid ⟨1, 0⟩ = true ∧ pointValid ⟨1, 1⟩ = true ∧
  pointDouble ⟨1, 1⟩ = some ⟨0, 1⟩ ∧ pointDouble ⟨1, 0⟩ = some inf ∧ pointDouble ⟨0, 1⟩ = none ∧
  pointAdd ⟨0, 1⟩ ⟨1, 1⟩ = some ⟨1, 0⟩ ∧ pointAdd ⟨0, 1⟩ ⟨1, 0⟩ = some ⟨1, 1⟩ ∧
  pointAdd ⟨1, 0⟩ ⟨1, 1⟩ = some inf ∧ pointAdd ⟨1, 0⟩ ⟨0, 1⟩ = some ⟨1, 1⟩ ∧
  pointAdd ⟨1, 1⟩ ⟨0, 1⟩ = some ⟨1, 0⟩

/-! ### Scalar multiplier -/

/-- SMUL (R89): for bw ≤ 240 it completes with `ScalarMul(Pa, K, bw)` in Pd, or an unspecified pair
where that has no value, and changes nothing else but ERR and the trace, and Pd counts as written
(R27); a wider bw is an illegal command that only sets ERR (R50; that `exec` answers so to the
ill-formed command is assumption 15). The model's choices: an unspecified pair is two draws
(assumption 2) and counts as written (assumption 11), and the events after one are those of drawn
pairs (assumption 3). What the loop's events are says `ScalarMulEventsAreThoseOfItsSteps`. -/
def Obligations.SmulResult : Prop :=
  ∀ (rd ra : PReg) (bw : BitVec 12) (s : State), opField (encode (.smul rd ra bw)) = 0x20 ∧
    (bw.toNat ≤ 240 → ∃ t, exec (.smul rd ra bw) s = .next t ∧
      (∀ r, scalarMul (s.preg ra) s.k bw.toNat = some r → t.preg rd = r ∧ t.draws = s.draws) ∧
      (scalarMul (s.preg ra) s.k bw.toNat = none →
        ∃ d, s.draws ≤ d ∧ t.preg rd = unspecifiedPoint d ∧ t.draws = d + 2) ∧
      (bw = 0 → t.preg rd = inf) ∧ (s.preg ra = inf → t.preg rd = inf) ∧
      t.trace = s.trace ++ (s.scalarRun (s.preg ra) s.k bw.toNat).events ∧
      t.fullP rd = true ∧ t.err = 0 ∧ t.t = s.t ∧ t.deg = s.deg ∧
      s.keepsF [xReg rd, yReg rd] t ∧ s.keepsK t ∧ s.keepsEnv t) ∧
    (240 < bw.toNat → exec (.smul rd ra bw) s = .next { s with err := 1 })

/-- `ScalarMul` (R88) by its last iteration: no iteration gives `INF`; the value at bw + 1 doubles the
value for the bits above the lowest and then adds P or `INF` by the lowest bit, and has no value
where one of these has none. -/
def Obligations.ScalarMulIsDoubleAndAdd : Prop :=
  ∀ (p : Point) (k : Elem) (bw : Nat),
    scalarMul p k 0 = some inf ∧
    scalarMul p k (bw + 1) =
      ((scalarMul p (k >>> 1) bw).bind pointDouble).bind fun a =>
        pointAdd a (if k.getLsbD 0 then p else inf)

/-- Bits of index bw and above are not looked at (R90): `ScalarMul` multiplies by K mod 2^bw. -/
def Obligations.ScalarMulIgnoresHighBits : Prop :=
  ∀ (p : Point) (k k' : Elem) (bw : Nat),
    k.toNat % 2 ^ bw = k'.toNat % 2 ^ bw → scalarMul p k bw = scalarMul p k' bw

/-- Constant shape (R135): the point-level trace of SMUL is (`DBL` `ADD`)^bw, of a successful KGEN
(`DBL` `ADD`)^233, of a successful SSEC that followed by two `DBL`, for every point and every
scalar. -/
def Obligations.ConstantShapeOfScalarMultiplication : Prop :=
  (∀ (rd ra : PReg) (bw : BitVec 12) (s : State), bw.toNat ≤ 240 →
    ∃ t, exec (.smul rd ra bw) s = .next t ∧
      pointLevel t.trace = pointLevel s.trace ++ dblAdd bw.toNat) ∧
  (∀ (rd : PReg) (s : State), s.rngAnswer.ok = true →
    ∃ t, exec (.kgen rd) s = .next t ∧
      pointLevel t.trace = pointLevel s.trace ++ dblAdd 233) ∧
  ∀ (rd ra : PReg) (s : State), s.preg ra ≠ inf → pointValid (s.preg ra) = true →
    ∃ t, exec (.ssec rd ra) s = .next t ∧
      pointLevel t.trace = pointLevel s.trace ++ dblAdd 233 ++ [.dbl, .dbl]

/-- The events of a scalar multiplication, field level included (R88, R134): SMUL with bw = 0 emits
none; SMUL with bw + 1 emits those of SMUL with K >> 1 and bw, then `DBL`, those of doubling the value
a reached there, `ADD`, and those of adding P or `INF` to its double d (no point-level event but these
where the double has no value); KGEN emits those of SMUL of G by the same scalar over 233 bits; SSEC
those of its key check, of SMUL of its key over 233 bits, and of the two cofactor doublings. -/
def Obligations.ScalarMulEventsAreThoseOfItsSteps : Prop :=
  (∀ (rd ra : PReg) (s : State), ∃ t, exec (.smul rd ra 0) s = .next t ∧ t.trace = s.trace) ∧
  (∀ (rd ra : PReg) (bw : BitVec 12) (s : State) (a : Point), bw.toNat < 240 →
    scalarMul (s.preg ra) (s.k >>> 1) bw.toNat = some a →
    let q := if s.k.getLsbD 0 then s.preg ra else inf
    ∃ t u, exec (.smul rd ra bw) { s with k := s.k >>> 1 } = .next t ∧
      exec (.smul rd ra (bw + 1)) s = .next u ∧
      (∀ d, pointDouble a = some d →
        u.trace = t.trace ++ .dbl :: doubleEvents a ++ .add :: addEvents d q) ∧
      (pointDouble a = none → ∃ es, pointLevel es = [] ∧
        u.trace = t.trace ++ .dbl :: doubleEvents a ++ .add :: es)) ∧
  (∀ (rd e : PReg) (s u : State), s.rngAnswer.ok = true → u.preg e = Config.generator.point →
    u.trace = s.trace → u.draws = s.draws →
    ∃ t, exec (.kgen rd) s = .next t ∧
      (u.k = t.k → ∃ v, exec (.smul rd e 233) u = .next v ∧ v.trace = t.trace)) ∧
  ∀ (rd ra : PReg) (s : State) (a d : Point), s.preg ra ≠ inf → pointValid (s.preg ra) = true →
    scalarMul (s.preg ra) s.k 233 = some a → pointDouble a = some d →
    ∃ es t u, exec (.smul rd ra 233) s = .next t ∧ t.trace = s.trace ++ es ∧
      exec (.ssec rd ra) s = .next u ∧
      u.trace = s.trace ++ [.sqr, .mul, .sqr, .mul] ++ es ++ .dbl :: doubleEvents a ++
        .dbl :: doubleEvents d

/-- A scalar whose low bw bits are zero gives `INF` from any pair (R131) and emits no field-level
event: the trace of SMUL is exactly (`DBL` `ADD`)^bw (R136). -/
def Obligations.ZeroScalarGivesInfinityWithoutFieldEvent : Prop :=
  ∀ (rd ra : PReg) (bw : BitVec 12) (s : State), bw.toNat ≤ 240 →
    (∀ i < bw.toNat, s.k.getLsbD i = false) →
    ∃ t, exec (.smul rd ra bw) s = .next t ∧ t.preg rd = inf ∧ t.err = 0 ∧
      t.trace = s.trace ++ dblAdd bw.toNat

/-- Scalar multiples of the points of small order (R93): of (1, 0) by the lowest bit alone, of (0, 1)
for K mod 2^bw = 0, 1 and above, and (1, 1) with K = 5, bw = 3. -/
def Obligations.ScalarMultiplesOfSmallOrderPoints : Prop :=
  (∀ (k : Elem) (bw : Nat), 1 ≤ bw →
    scalarMul ⟨1, 0⟩ k bw = some (if k.getLsbD 0 then ⟨1, 0⟩ else inf)) ∧
  (∀ (k : Elem) (bw : Nat),
    (k.toNat % 2 ^ bw = 0 → scalarMul ⟨0, 1⟩ k bw = some inf) ∧
    (k.toNat % 2 ^ bw = 1 → scalarMul ⟨0, 1⟩ k bw = some ⟨0, 1⟩) ∧
    (2 ≤ k.toNat % 2 ^ bw → scalarMul ⟨0, 1⟩ k bw = none)) ∧
  scalarMul ⟨1, 1⟩ 5 3 = none

/-- The curve invariant carried through the loop and the cofactor step (R83, R93): from a valid point,
whatever `ScalarMul` or the secret of SSEC gives is a valid point. -/
def Obligations.ScalarMulOfAValidPointIsValid : Prop :=
  ∀ (p : Point) (k : Elem) (bw : Nat), pointValid p = true →
    (∀ r, scalarMul p k bw = some r → pointValid r = true) ∧
    ∀ r, ((scalarMul p k bw).bind pointDouble).bind pointDouble = some r → pointValid r = true

/-! ### Protocol layer -/

/-- KGEN (R98): completes with exactly one request of 30 bytes; on a false answer ERR = 4 and K, Pd
and the trace are as before; else K takes the 30 bytes, the first the most significant, and Pd
`ScalarMul(G, K, 233)`, or an unspecified pair where that has no value, and both count as written
(R27). The model's choices: the pending answers (assumption 5), an unspecified pair is two draws
(assumption 2) and counts as written (assumption 11), and the events after one are those of drawn
pairs (assumption 3). -/
def Obligations.KgenResult : Prop :=
  ∀ (rd : PReg) (s : State), opField (encode (.kgen rd)) = 0x30 ∧
    ∃ t, exec (.kgen rd) s = .next t ∧
      t.rngRequests = s.rngRequests ++ [30] ∧ t.rng = s.rng.tail ∧
      t.t = s.t ∧ t.deg = s.deg ∧ t.host = s.host ∧ t.readData = s.readData ∧
      (s.rngAnswer.ok = false →
        t.err = 4 ∧ t.trace = s.trace ∧ t.draws = s.draws ∧ s.keepsF [] t ∧ s.keepsK t) ∧
      (s.rngAnswer.ok = true →
        t.err = 0 ∧ t.fullP rd = true ∧ t.fullK = true ∧ s.keepsF [xReg rd, yReg rd] t ∧
        (∀ j : Fin 30, elemByte t.k (29 - j.val) = s.rngAnswer.bytes[j]) ∧
        (∀ j : Fin 30, t.readByte (0x200 + j.val) = some s.rngAnswer.bytes[j]) ∧
        (∀ r, scalarMul Config.generator.point t.k 233 = some r →
          t.preg rd = r ∧ t.draws = s.draws) ∧
        (scalarMul Config.generator.point t.k 233 = none →
          ∃ d, s.draws ≤ d ∧ t.preg rd = unspecifiedPoint d ∧ t.draws = d + 2) ∧
        t.trace = s.trace ++ (s.scalarRun Config.generator.point t.k 233).events)

/-- The example of R98: when the source delivers 29 zero bytes and then 0x01, K = 1 and the public key
is G itself, for every admissible G. -/
def Obligations.KgenOfScalarOnePublishesTheGenerator : Prop :=
  ∀ (rd : PReg) (s : State) (a : RngAnswer) (rest : List RngAnswer),
    s.rng = a :: rest → a.ok = true → (∀ j : Fin 30, a.bytes[j] = if j.val = 29 then 1 else 0) →
    ∃ t, exec (.kgen rd) s = .next t ∧ t.k = 1 ∧ t.preg rd = Config.generator.point ∧ t.err = 0

/-- Generator self-consistency (R105): with the same 30 bytes in `KWIN` and G in some point register,
`SMUL Pe, Pa, 233` leaves `PWIN[e]` equal, byte for byte, to the public key KGEN left in `PWIN[d]`
(when KGEN drew no unspecified value). -/
def Obligations.GeneratorSelfConsistency : Prop :=
  ∀ (d a e : PReg) (s t u : State), s.rngAnswer.ok = true → exec (.kgen d) s = .next t →
    t.draws = s.draws →
    (∀ j : Fin 30, u.readByte (0x200 + j.val) = some s.rngAnswer.bytes[j]) →
    u.preg a = Config.generator.point →
    ∃ v, exec (.smul e a 233) u = .next v ∧
      ∀ j < 60, v.readByte (0x100 + 0x40 * e.val + j) = t.readByte (0x100 + 0x40 * d.val + j)

/-- SSEC on an accepted key (R99, R100): completes with the scalar multiple of Pa by K over 233 bits,
doubled twice, in Pd, or an unspecified pair where that has no value; ERR = 0, T and K unchanged, and
Pd counts as written (R27). The model's choices: an unspecified pair is two draws (assumption 2) and
counts as written (assumption 11), and the events after one are those of drawn pairs (assumption
3). -/
def Obligations.SsecResult : Prop :=
  ∀ (rd ra : PReg) (s : State), opField (encode (.ssec rd ra)) = 0x31 ∧
    (s.preg ra ≠ inf → pointValid (s.preg ra) = true →
      ∃ t, exec (.ssec rd ra) s = .next t ∧
        let secret := ((scalarMul (s.preg ra) s.k 233).bind pointDouble).bind pointDouble
        (∀ r, secret = some r → t.preg rd = r ∧ t.draws = s.draws) ∧
        (secret = none → ∃ d, s.draws ≤ d ∧ t.preg rd = unspecifiedPoint d ∧ t.draws = d + 2) ∧
        t.trace = s.trace ++ [.sqr, .mul, .sqr, .mul] ++ (s.secretRun (s.preg ra)).events ∧
        t.fullP rd = true ∧ t.err = 0 ∧ t.t = s.t ∧ t.deg = s.deg ∧
        s.keepsF [xReg rd, yReg rd] t ∧ s.keepsK t ∧ s.keepsEnv t)

/-- Validity rejection (R104, R111): a remote key that is `INF` or fails `PointValid` gives ERR = 3;
every register keeps its value, and no `DBL` or `ADD` is emitted: the trace takes the events of
`PointValid` alone (R134, 90_conflicts.md C11), `SQR MUL SQR MUL` for a canonical pair off the curve
and none for `INF` or degree overflow. -/
def Obligations.SsecRejectsInvalidKeys : Prop :=
  ∀ (rd ra : PReg) (s : State), s.preg ra = inf ∨ pointValid (s.preg ra) = false →
    let p := s.preg ra
    let reduced := p.x >>> 233 = 0 ∧ p.y >>> 233 = 0
    ∃ t, exec (.ssec rd ra) s = .next t ∧ t.err = 3 ∧
      t.t = s.t ∧ t.deg = s.deg ∧ t.draws = s.draws ∧
      s.keepsF [] t ∧ s.keepsK t ∧ s.keepsEnv t ∧
      pointLevel t.trace = pointLevel s.trace ∧
      (p = inf ∨ ¬reduced → t.trace = s.trace) ∧
      (p ≠ inf → reduced → t.trace = s.trace ++ [.sqr, .mul, .sqr, .mul])

/-- The cofactor scenario (R106) where its result is defined: the remote key (1, 0) gives the secret
`INF` with ERR = 0 for every K. -/
def Obligations.SsecOfTheOrderFourKeyIsInfinity : Prop :=
  ∀ (rd ra : PReg) (s : State), s.preg ra = ⟨1, 0⟩ →
    ∃ t, exec (.ssec rd ra) s = .next t ∧ t.preg rd = inf ∧ t.err = 0 ∧ t.draws = s.draws

/-! ### Host access -/

/-- What the windows show (R31 to R34): `FWIN` little-endian, both halves of `PWIN` and `KWIN`
big-endian, pad bytes 0, and no byte at any other offset. -/
def Obligations.WindowBytesAreTheRegisterBits : Prop :=
  ∀ s : State,
    (∀ (n : FReg) (d : Nat), d < 30 →
      s.readByte (0x20 * n.val + d) = some ((s.freg n).extractLsb' (8 * d) 8)) ∧
    (∀ (n : FReg) (d : Nat), 30 ≤ d → d < 32 → s.readByte (0x20 * n.val + d) = some 0) ∧
    (∀ (k : PReg) (j : Nat), j < 30 → s.readByte (0x100 + 0x40 * k.val + j) =
      some ((s.preg k).x.extractLsb' (8 * (29 - j)) 8)) ∧
    (∀ (k : PReg) (j : Nat), 30 ≤ j → j < 60 → s.readByte (0x100 + 0x40 * k.val + j) =
      some ((s.preg k).y.extractLsb' (8 * (59 - j)) 8)) ∧
    (∀ (k : PReg) (j : Nat), 60 ≤ j → j < 64 →
      s.readByte (0x100 + 0x40 * k.val + j) = some 0) ∧
    (∀ j < 30, s.readByte (0x200 + j) = some (s.k.extractLsb' (8 * (29 - j)) 8)) ∧
    (∀ j, 30 ≤ j → j < 32 → s.readByte (0x200 + j) = some 0) ∧
    ∀ addr, 0x220 ≤ addr → s.readByte addr = none

/-- A one-byte write to a data window (R31, R32, R37): at every offset that shows the same byte (its
own, and the mirrored one of the other view) the byte written is read, at every other what was read
before; the addressed byte counts as written and every other as before (R27); a pad byte changes
nothing; no control register, flag or trace event changes. -/
def Obligations.WindowWriteReplacesOneByte : Prop :=
  ∀ (s : State) (addr : Nat) (b : Byte) (slot : Slot) (rest : List HostAction),
    s.host = .write addr [b] :: rest → slotOf addr = some slot →
    ∃ t, step s = .next t ∧
      (∀ a, t.readByte a =
        if slotOf a = some slot ∧ slot ≠ .pad then some b else s.readByte a) ∧
      (∀ r : Slot, t.slotWritten r = if r = slot then true else s.slotWritten r) ∧
      (slot = .pad → t = { s with host := rest }) ∧
      t.host = rest ∧ t.err = s.err ∧ t.t = s.t ∧ t.deg = s.deg ∧ t.trace = s.trace ∧
      t.draws = s.draws ∧ t.readData = s.readData ∧ t.rng = s.rng ∧
      t.rngRequests = s.rngRequests

/-- Round trip of a point's wire form (R33): after the 60 bytes of `PWIN[k]` are written, in order, the
same 60 bytes are read back. -/
def Obligations.PointWireFormRoundTrips : Prop :=
  ∀ (s : State) (k : PReg) (v : Vector Byte 60) (rest : List HostAction),
    s.host = (List.finRange 60).map
      (fun j => HostAction.write (0x100 + 0x40 * k.val + j.val) [v[j]]) ++ rest →
    ∃ t : State, Host.Core.run core 60 s = .next t ∧ t.host = rest ∧
      ∀ j : Fin 60, t.readByte (0x100 + 0x40 * k.val + j.val) = some v[j]

/-- The accesses with a step are exactly those of R29: one byte of a data window, or the aligned word
of a control register (CMD alone for a write); every other one stops with the bus error (R36). -/
def Obligations.RefusedAccessesAreAllOthers : Prop :=
  ∀ (s : State) (addr n : Nat) (bs : List Byte),
    (if (n = 1 ∧ addr < 0x220) ∨ (n = 4 ∧ (addr = 0x300 ∨ addr = 0x304 ∨ addr = 0x308)) then
      ∃ t, hostAction (.read addr n) s = .next t
    else hostAction (.read addr n) s = .fault (.busError false addr n)) ∧
    (if (bs.length = 1 ∧ addr < 0x220) ∨ (bs.length = 4 ∧ addr = 0x300) then
      ∃ t, hostAction (.write addr bs) s = .next t
    else hostAction (.write addr bs) s = .fault (.busError true addr bs.length))

/-- The control words (R18, R19, R20): STATUS shows T at bit 0 and ERR at bits 11:8, DEG its eight
bits, every other bit 0, and CMD reads as 0. -/
def Obligations.ControlWordReads : Prop :=
  ∀ s : State,
    (∃ w : Word, s.memRead 0x304 4 = some (wordBytes w) ∧ w.getLsbD 0 = s.t ∧
      (∀ i, 1 ≤ i → i < 8 → w.getLsbD i = false) ∧
      (∀ i < 4, w.getLsbD (8 + i) = s.err.getLsbD i) ∧
      ∀ i, 12 ≤ i → w.getLsbD i = false) ∧
    (∃ w : Word, s.memRead 0x308 4 = some (wordBytes w) ∧
      (∀ i < 8, w.getLsbD i = s.deg.getLsbD i) ∧ ∀ i, 8 ≤ i → w.getLsbD i = false) ∧
    s.memRead 0x300 4 = some [0, 0, 0, 0]

/-- A read has no side effect (R37): it hands the bytes to the host and nothing else changes, so the
same read gives the same bytes again. -/
def Obligations.ReadsChangeNothing : Prop :=
  ∀ (s : State) (addr n : Nat) (bs : List Byte) (rest : List HostAction),
    s.host = .read addr n :: rest → s.memRead addr n = some bs →
    ∃ t, step s = .next t ∧ t = { s with host := rest, readData := bs } ∧
      t.memRead addr n = some bs ∧ ∀ a, t.readByte a = s.readByte a

/-! ### Reset -/

/-- The reset state (R26): T, ERR, DEG are 0, the trace is empty, and no register counts as written. -/
def Obligations.ResetStateValues : Prop :=
  State.reset.t = false ∧ State.reset.err = 0 ∧ State.reset.deg = 0 ∧ State.reset.trace = [] ∧
  (∀ n, State.reset.fullF n = false) ∧ State.reset.fullK = false

/-- The reset event from any state (R122, R123): T, ERR, DEG are 0 and the trace is empty; F0..F7 and K
are fresh unspecified values (free values are the model's form of them, assumption 8), and no
register counts as written. -/
def Obligations.ResetEventLeavesTheResetValues : Prop :=
  ∀ (s : State) (rest : List HostAction), s.host = .reset :: rest →
    ∃ t, step s = .next t ∧ t.host = rest ∧
      t.t = false ∧ t.err = 0 ∧ t.deg = 0 ∧ t.trace = [] ∧
      (∀ n, t.freg n = Config.unspecified240 (s.draws + n.val) ∧ t.fullF n = false) ∧
      t.k = Config.unspecified240 (s.draws + 8) ∧ t.fullK = false ∧ t.draws = s.draws + 9

/-! ### The whole machine -/

/-- With no host action pending the unit is idle and keeps all state (R120; that the model steps in
place is assumption 4). -/
def Obligations.IdleUnitKeepsItsState : Prop :=
  ∀ s : State, s.host = [] → step s = .next s

/-- The invariant (`State.Inv`: ERR holds a produced code, DEG a bit index) holds at reset. -/
def Obligations.ResetMeetsTheInvariant : Prop := State.reset.Inv

/-- Every step keeps the invariant: ERR never holds PrivateKeyInvalid or an unassigned code (R109,
R112), and DEG never exceeds 239 (R19). -/
def Obligations.EveryStepKeepsTheInvariant : Prop :=
  ∀ s t : State, s.Inv → step s = .next t → t.Inv

/-- Every command completes (R138), with one code (R116): InvalidArgument exactly when it is not well
formed, RemotePublicKeyInvalid exactly for an SSEC whose key is `INF` or invalid, RngFailure exactly
for a KGEN whose source fails, else OK. -/
def Obligations.EveryCommandCompletesWithItsCode : Prop :=
  ∀ (i : Instr) (s : State), ∃ t, exec i s = .next t ∧
    (t.err = 1 ↔ i.wf = false) ∧
    (t.err = 3 ↔ ∃ rd ra, i = .ssec rd ra ∧
      (s.preg ra = inf ∨ pointValid (s.preg ra) = false)) ∧
    (t.err = 4 ↔ ∃ rd, i = .kgen rd ∧ s.rngAnswer.ok = false) ∧
    producedCode t.err

/-- T is written only by the five predicate commands and not on an error (R17), DEG only by FDEG (R19),
K only by KGEN (R16), and only KGEN makes a request to the random source (R42). -/
def Obligations.FlagAndSpecialRegisterWriters : Prop :=
  ∀ (i : Instr) (s t : State), exec i s = .next t →
    (t.t ≠ s.t → (∃ ra, i = .fisz ra) ∨ (∃ ra rb, i = .feq ra rb) ∨ (∃ ra, i = .fdeg ra) ∨
      (∃ ra, i = .pval ra) ∨ ∃ ra, i = .pisz ra) ∧
    (t.err ≠ 0 → t.t = s.t) ∧
    (t.deg ≠ s.deg → ∃ ra, i = .fdeg ra) ∧
    (t.k ≠ s.k → ∃ rd, i = .kgen rd) ∧
    (t.rngRequests ≠ s.rngRequests → ∃ rd, i = .kgen rd)

/-- State after an error (R117): every field register, K, T and DEG hold what they held before, every
byte of the register space reads as before, and no point-level event was emitted; after RngFailure the
one request has been made and its answer consumed, after the other errors none has. -/
def Obligations.FailingCommandLeavesTheRegisters : Prop :=
  ∀ (i : Instr) (s t : State), exec i s = .next t → t.err ≠ 0 →
    t.f = s.f ∧ t.k = s.k ∧ t.t = s.t ∧ t.deg = s.deg ∧
    (∀ addr, t.readByte addr = s.readByte addr) ∧ pointLevel t.trace = pointLevel s.trace ∧
    (t.err = 4 → t.rngRequests = s.rngRequests ++ [30] ∧ t.rng = s.rng.tail) ∧
    (t.err ≠ 4 → t.rngRequests = s.rngRequests ∧ t.rng = s.rng)

/-- Canonical form is kept (R13, R69): from registers that are all canonical, a command that draws no
unspecified value leaves them all canonical. -/
def Obligations.CommandsKeepCanonicalForm : Prop :=
  ∀ (i : Instr) (s t : State), s.allCanonical → exec i s = .next t → t.draws = s.draws →
    t.allCanonical

/-- What was never written cannot matter (R27, R124): from two states that differ at most in register
bytes never written since reset, a step that relies on nothing unwritten (`State.safeStep`: the
table of R124) completes in both or stops in both alike, and the states it leaves differ again at
most in unwritten bytes. -/
def Obligations.UnwrittenBytesNeverMatter : Prop :=
  ∀ s t : State, s.agree t → s.safeStep = true →
    (∀ s', step s = .next s' → ∃ t', step t = .next t' ∧ s'.agree t') ∧
    (∀ r, step s = .fault r → step t = .fault r)
end

