-- ==== Sys2Proof/Laws/FieldValues.lean ====
section
/-! SUPPORT. The values of the field functions at 0 and 1, which the spec's small examples need, and the
inverse of 1 by induction on the ladder (no kernel runs 462 products). -/

set_option autoImplicit false

namespace Sys2Proof

@[simp] theorem reduce_zero : reduce 0#240 = 0#240 := by decide +kernel

@[simp] theorem reduce_one : reduce 1#240 = 1#240 := by decide +kernel

@[simp] theorem fSqr_zero : fSqr 0#240 = 0#240 := by decide +kernel

@[simp] theorem fSqr_one : fSqr 1#240 = 1#240 := by decide +kernel

@[simp] theorem fMul_one_one : fMul 1#240 1#240 = 1#240 := by decide +kernel

/-- The ladder started from 1 stays at 1. -/
@[simp] theorem fInvLadder_one (n : Nat) : fInvLadder 1#240 n = 1#240 := by
  induction n with
  | zero => exact reduce_one
  | succ n ih => rw [fInvLadder, ih, fSqr_one, fMul_one_one]

/-- `FInv(1) = 1` (R64). -/
@[simp] theorem fInv_one : fInv 1#240 = some 1#240 := by
  rw [fInv, reduce_one, if_neg (by decide), fInvLadder_one, fSqr_one]

/-- `FInv` has no value at 0 (R60). -/
@[simp] theorem fInv_zero : fInv 0#240 = none := by simp [fInv]

/-- `FInv` has a value exactly where the operand is not congruent to 0 (R60). -/
theorem fInv_isSome (a : Elem) : (fInv a).isSome = true ↔ reduce a ≠ 0 := by
  simp only [fInv]
  split <;> simp_all

end Sys2Proof
end

