-- ==== Sys2Proof/Laws/State.lean ====
section
/-! SUPPORT. One lemma per field per update of `State`, so that no proof unfolds a record update. -/

set_option autoImplicit false

namespace Sys2Proof.Machine

/-! ### `setF` -/

@[simp] theorem State.setF_f (s : State) (n : FReg) (v : Elem) : (s.setF n v).f = s.f.set n v :=
  rfl
@[simp] theorem State.setF_k (s : State) (n : FReg) (v : Elem) : (s.setF n v).k = s.k :=
  rfl
@[simp] theorem State.setF_t (s : State) (n : FReg) (v : Elem) : (s.setF n v).t = s.t :=
  rfl
@[simp] theorem State.setF_err (s : State) (n : FReg) (v : Elem) : (s.setF n v).err = s.err :=
  rfl
@[simp] theorem State.setF_deg (s : State) (n : FReg) (v : Elem) : (s.setF n v).deg = s.deg :=
  rfl
@[simp] theorem State.setF_trace (s : State) (n : FReg) (v : Elem) : (s.setF n v).trace = s.trace :=
  rfl
@[simp] theorem State.setF_wrF (s : State) (n : FReg) (v : Elem) : (s.setF n v).wrF = s.wrF.set n (BitVec.allOnes 30) :=
  rfl
@[simp] theorem State.setF_wrK (s : State) (n : FReg) (v : Elem) : (s.setF n v).wrK = s.wrK :=
  rfl
@[simp] theorem State.setF_draws (s : State) (n : FReg) (v : Elem) : (s.setF n v).draws = s.draws :=
  rfl
@[simp] theorem State.setF_host (s : State) (n : FReg) (v : Elem) : (s.setF n v).host = s.host :=
  rfl
@[simp] theorem State.setF_readData (s : State) (n : FReg) (v : Elem) : (s.setF n v).readData = s.readData :=
  rfl
@[simp] theorem State.setF_rng (s : State) (n : FReg) (v : Elem) : (s.setF n v).rng = s.rng :=
  rfl
@[simp] theorem State.setF_rngRequests (s : State) (n : FReg) (v : Elem) : (s.setF n v).rngRequests = s.rngRequests :=
  rfl

/-! ### `setP` -/

@[simp] theorem State.setP_f (s : State) (k : PReg) (p : Point) : (s.setP k p).f = (s.f.set (xReg k) p.x).set (yReg k) p.y :=
  rfl
@[simp] theorem State.setP_k (s : State) (k : PReg) (p : Point) : (s.setP k p).k = s.k :=
  rfl
@[simp] theorem State.setP_t (s : State) (k : PReg) (p : Point) : (s.setP k p).t = s.t :=
  rfl
@[simp] theorem State.setP_err (s : State) (k : PReg) (p : Point) : (s.setP k p).err = s.err :=
  rfl
@[simp] theorem State.setP_deg (s : State) (k : PReg) (p : Point) : (s.setP k p).deg = s.deg :=
  rfl
@[simp] theorem State.setP_trace (s : State) (k : PReg) (p : Point) : (s.setP k p).trace = s.trace :=
  rfl
@[simp] theorem State.setP_wrF (s : State) (k : PReg) (p : Point) : (s.setP k p).wrF = (s.wrF.set (xReg k) (BitVec.allOnes 30)).set (yReg k) (BitVec.allOnes 30) :=
  rfl
@[simp] theorem State.setP_wrK (s : State) (k : PReg) (p : Point) : (s.setP k p).wrK = s.wrK :=
  rfl
@[simp] theorem State.setP_draws (s : State) (k : PReg) (p : Point) : (s.setP k p).draws = s.draws :=
  rfl
@[simp] theorem State.setP_host (s : State) (k : PReg) (p : Point) : (s.setP k p).host = s.host :=
  rfl
@[simp] theorem State.setP_readData (s : State) (k : PReg) (p : Point) : (s.setP k p).readData = s.readData :=
  rfl
@[simp] theorem State.setP_rng (s : State) (k : PReg) (p : Point) : (s.setP k p).rng = s.rng :=
  rfl
@[simp] theorem State.setP_rngRequests (s : State) (k : PReg) (p : Point) : (s.setP k p).rngRequests = s.rngRequests :=
  rfl

/-! ### `setK` -/

@[simp] theorem State.setK_f (s : State) (v : Elem) : (s.setK v).f = s.f :=
  rfl
@[simp] theorem State.setK_k (s : State) (v : Elem) : (s.setK v).k = v :=
  rfl
@[simp] theorem State.setK_t (s : State) (v : Elem) : (s.setK v).t = s.t :=
  rfl
@[simp] theorem State.setK_err (s : State) (v : Elem) : (s.setK v).err = s.err :=
  rfl
@[simp] theorem State.setK_deg (s : State) (v : Elem) : (s.setK v).deg = s.deg :=
  rfl
@[simp] theorem State.setK_trace (s : State) (v : Elem) : (s.setK v).trace = s.trace :=
  rfl
@[simp] theorem State.setK_wrF (s : State) (v : Elem) : (s.setK v).wrF = s.wrF :=
  rfl
@[simp] theorem State.setK_wrK (s : State) (v : Elem) : (s.setK v).wrK = BitVec.allOnes 30 :=
  rfl
@[simp] theorem State.setK_draws (s : State) (v : Elem) : (s.setK v).draws = s.draws :=
  rfl
@[simp] theorem State.setK_host (s : State) (v : Elem) : (s.setK v).host = s.host :=
  rfl
@[simp] theorem State.setK_readData (s : State) (v : Elem) : (s.setK v).readData = s.readData :=
  rfl
@[simp] theorem State.setK_rng (s : State) (v : Elem) : (s.setK v).rng = s.rng :=
  rfl
@[simp] theorem State.setK_rngRequests (s : State) (v : Elem) : (s.setK v).rngRequests = s.rngRequests :=
  rfl

/-! ### `setT` -/

@[simp] theorem State.setT_f (s : State) (b : Bool) : (s.setT b).f = s.f :=
  rfl
@[simp] theorem State.setT_k (s : State) (b : Bool) : (s.setT b).k = s.k :=
  rfl
@[simp] theorem State.setT_t (s : State) (b : Bool) : (s.setT b).t = b :=
  rfl
@[simp] theorem State.setT_err (s : State) (b : Bool) : (s.setT b).err = s.err :=
  rfl
@[simp] theorem State.setT_deg (s : State) (b : Bool) : (s.setT b).deg = s.deg :=
  rfl
@[simp] theorem State.setT_trace (s : State) (b : Bool) : (s.setT b).trace = s.trace :=
  rfl
@[simp] theorem State.setT_wrF (s : State) (b : Bool) : (s.setT b).wrF = s.wrF :=
  rfl
@[simp] theorem State.setT_wrK (s : State) (b : Bool) : (s.setT b).wrK = s.wrK :=
  rfl
@[simp] theorem State.setT_draws (s : State) (b : Bool) : (s.setT b).draws = s.draws :=
  rfl
@[simp] theorem State.setT_host (s : State) (b : Bool) : (s.setT b).host = s.host :=
  rfl
@[simp] theorem State.setT_readData (s : State) (b : Bool) : (s.setT b).readData = s.readData :=
  rfl
@[simp] theorem State.setT_rng (s : State) (b : Bool) : (s.setT b).rng = s.rng :=
  rfl
@[simp] theorem State.setT_rngRequests (s : State) (b : Bool) : (s.setT b).rngRequests = s.rngRequests :=
  rfl

/-! ### `setDeg` -/

@[simp] theorem State.setDeg_f (s : State) (d : Nat) : (s.setDeg d).f = s.f :=
  rfl
@[simp] theorem State.setDeg_k (s : State) (d : Nat) : (s.setDeg d).k = s.k :=
  rfl
@[simp] theorem State.setDeg_t (s : State) (d : Nat) : (s.setDeg d).t = s.t :=
  rfl
@[simp] theorem State.setDeg_err (s : State) (d : Nat) : (s.setDeg d).err = s.err :=
  rfl
@[simp] theorem State.setDeg_deg (s : State) (d : Nat) : (s.setDeg d).deg = BitVec.ofNat 8 d :=
  rfl
@[simp] theorem State.setDeg_trace (s : State) (d : Nat) : (s.setDeg d).trace = s.trace :=
  rfl
@[simp] theorem State.setDeg_wrF (s : State) (d : Nat) : (s.setDeg d).wrF = s.wrF :=
  rfl
@[simp] theorem State.setDeg_wrK (s : State) (d : Nat) : (s.setDeg d).wrK = s.wrK :=
  rfl
@[simp] theorem State.setDeg_draws (s : State) (d : Nat) : (s.setDeg d).draws = s.draws :=
  rfl
@[simp] theorem State.setDeg_host (s : State) (d : Nat) : (s.setDeg d).host = s.host :=
  rfl
@[simp] theorem State.setDeg_readData (s : State) (d : Nat) : (s.setDeg d).readData = s.readData :=
  rfl
@[simp] theorem State.setDeg_rng (s : State) (d : Nat) : (s.setDeg d).rng = s.rng :=
  rfl
@[simp] theorem State.setDeg_rngRequests (s : State) (d : Nat) : (s.setDeg d).rngRequests = s.rngRequests :=
  rfl

/-! ### `raise` -/

@[simp] theorem State.raise_f (s : State) (e : ErrorKind) : (s.raise e).f = s.f :=
  rfl
@[simp] theorem State.raise_k (s : State) (e : ErrorKind) : (s.raise e).k = s.k :=
  rfl
@[simp] theorem State.raise_t (s : State) (e : ErrorKind) : (s.raise e).t = s.t :=
  rfl
@[simp] theorem State.raise_err (s : State) (e : ErrorKind) : (s.raise e).err = errorCode e :=
  rfl
@[simp] theorem State.raise_deg (s : State) (e : ErrorKind) : (s.raise e).deg = s.deg :=
  rfl
@[simp] theorem State.raise_trace (s : State) (e : ErrorKind) : (s.raise e).trace = s.trace :=
  rfl
@[simp] theorem State.raise_wrF (s : State) (e : ErrorKind) : (s.raise e).wrF = s.wrF :=
  rfl
@[simp] theorem State.raise_wrK (s : State) (e : ErrorKind) : (s.raise e).wrK = s.wrK :=
  rfl
@[simp] theorem State.raise_draws (s : State) (e : ErrorKind) : (s.raise e).draws = s.draws :=
  rfl
@[simp] theorem State.raise_host (s : State) (e : ErrorKind) : (s.raise e).host = s.host :=
  rfl
@[simp] theorem State.raise_readData (s : State) (e : ErrorKind) : (s.raise e).readData = s.readData :=
  rfl
@[simp] theorem State.raise_rng (s : State) (e : ErrorKind) : (s.raise e).rng = s.rng :=
  rfl
@[simp] theorem State.raise_rngRequests (s : State) (e : ErrorKind) : (s.raise e).rngRequests = s.rngRequests :=
  rfl

/-! ### `ok` -/

@[simp] theorem State.ok_f (s : State) : s.ok.f = s.f :=
  rfl
@[simp] theorem State.ok_k (s : State) : s.ok.k = s.k :=
  rfl
@[simp] theorem State.ok_t (s : State) : s.ok.t = s.t :=
  rfl
@[simp] theorem State.ok_err (s : State) : s.ok.err = 0 :=
  rfl
@[simp] theorem State.ok_deg (s : State) : s.ok.deg = s.deg :=
  rfl
@[simp] theorem State.ok_trace (s : State) : s.ok.trace = s.trace :=
  rfl
@[simp] theorem State.ok_wrF (s : State) : s.ok.wrF = s.wrF :=
  rfl
@[simp] theorem State.ok_wrK (s : State) : s.ok.wrK = s.wrK :=
  rfl
@[simp] theorem State.ok_draws (s : State) : s.ok.draws = s.draws :=
  rfl
@[simp] theorem State.ok_host (s : State) : s.ok.host = s.host :=
  rfl
@[simp] theorem State.ok_readData (s : State) : s.ok.readData = s.readData :=
  rfl
@[simp] theorem State.ok_rng (s : State) : s.ok.rng = s.rng :=
  rfl
@[simp] theorem State.ok_rngRequests (s : State) : s.ok.rngRequests = s.rngRequests :=
  rfl

/-! ### `illegalCommand` -/

@[simp] theorem State.illegalCommand_f (s : State) : s.illegalCommand.f = s.f :=
  rfl
@[simp] theorem State.illegalCommand_k (s : State) : s.illegalCommand.k = s.k :=
  rfl
@[simp] theorem State.illegalCommand_t (s : State) : s.illegalCommand.t = s.t :=
  rfl
@[simp] theorem State.illegalCommand_err (s : State) : s.illegalCommand.err = 1 :=
  rfl
@[simp] theorem State.illegalCommand_deg (s : State) : s.illegalCommand.deg = s.deg :=
  rfl
@[simp] theorem State.illegalCommand_trace (s : State) : s.illegalCommand.trace = s.trace :=
  rfl
@[simp] theorem State.illegalCommand_wrF (s : State) : s.illegalCommand.wrF = s.wrF :=
  rfl
@[simp] theorem State.illegalCommand_wrK (s : State) : s.illegalCommand.wrK = s.wrK :=
  rfl
@[simp] theorem State.illegalCommand_draws (s : State) : s.illegalCommand.draws = s.draws :=
  rfl
@[simp] theorem State.illegalCommand_host (s : State) : s.illegalCommand.host = s.host :=
  rfl
@[simp] theorem State.illegalCommand_readData (s : State) : s.illegalCommand.readData = s.readData :=
  rfl
@[simp] theorem State.illegalCommand_rng (s : State) : s.illegalCommand.rng = s.rng :=
  rfl
@[simp] theorem State.illegalCommand_rngRequests (s : State) : s.illegalCommand.rngRequests = s.rngRequests :=
  rfl

/-! ### `emit` -/

@[simp] theorem State.emit_f (s : State) (es : List Event) : (s.emit es).f = s.f :=
  rfl
@[simp] theorem State.emit_k (s : State) (es : List Event) : (s.emit es).k = s.k :=
  rfl
@[simp] theorem State.emit_t (s : State) (es : List Event) : (s.emit es).t = s.t :=
  rfl
@[simp] theorem State.emit_err (s : State) (es : List Event) : (s.emit es).err = s.err :=
  rfl
@[simp] theorem State.emit_deg (s : State) (es : List Event) : (s.emit es).deg = s.deg :=
  rfl
@[simp] theorem State.emit_trace (s : State) (es : List Event) : (s.emit es).trace = s.trace ++ es :=
  rfl
@[simp] theorem State.emit_wrF (s : State) (es : List Event) : (s.emit es).wrF = s.wrF :=
  rfl
@[simp] theorem State.emit_wrK (s : State) (es : List Event) : (s.emit es).wrK = s.wrK :=
  rfl
@[simp] theorem State.emit_draws (s : State) (es : List Event) : (s.emit es).draws = s.draws :=
  rfl
@[simp] theorem State.emit_host (s : State) (es : List Event) : (s.emit es).host = s.host :=
  rfl
@[simp] theorem State.emit_readData (s : State) (es : List Event) : (s.emit es).readData = s.readData :=
  rfl
@[simp] theorem State.emit_rng (s : State) (es : List Event) : (s.emit es).rng = s.rng :=
  rfl
@[simp] theorem State.emit_rngRequests (s : State) (es : List Event) : (s.emit es).rngRequests = s.rngRequests :=
  rfl

/-! ### `rngFill` -/

@[simp] theorem State.rngFill_f (s : State) (len : Nat) : (s.rngFill len).f = s.f :=
  rfl
@[simp] theorem State.rngFill_k (s : State) (len : Nat) : (s.rngFill len).k = s.k :=
  rfl
@[simp] theorem State.rngFill_t (s : State) (len : Nat) : (s.rngFill len).t = s.t :=
  rfl
@[simp] theorem State.rngFill_err (s : State) (len : Nat) : (s.rngFill len).err = s.err :=
  rfl
@[simp] theorem State.rngFill_deg (s : State) (len : Nat) : (s.rngFill len).deg = s.deg :=
  rfl
@[simp] theorem State.rngFill_trace (s : State) (len : Nat) : (s.rngFill len).trace = s.trace :=
  rfl
@[simp] theorem State.rngFill_wrF (s : State) (len : Nat) : (s.rngFill len).wrF = s.wrF :=
  rfl
@[simp] theorem State.rngFill_wrK (s : State) (len : Nat) : (s.rngFill len).wrK = s.wrK :=
  rfl
@[simp] theorem State.rngFill_draws (s : State) (len : Nat) : (s.rngFill len).draws = s.draws :=
  rfl
@[simp] theorem State.rngFill_host (s : State) (len : Nat) : (s.rngFill len).host = s.host :=
  rfl
@[simp] theorem State.rngFill_readData (s : State) (len : Nat) : (s.rngFill len).readData = s.readData :=
  rfl
@[simp] theorem State.rngFill_rng (s : State) (len : Nat) : (s.rngFill len).rng = s.rng.tail :=
  rfl
@[simp] theorem State.rngFill_rngRequests (s : State) (len : Nat) : (s.rngFill len).rngRequests = s.rngRequests ++ [len] :=
  rfl

/-! ### `setFOpen` -/

@[simp] theorem State.setFOpen_k (s : State) (n : FReg) (v : Option Elem) : (s.setFOpen n v).k = s.k :=
  by cases v <;> rfl
@[simp] theorem State.setFOpen_t (s : State) (n : FReg) (v : Option Elem) : (s.setFOpen n v).t = s.t :=
  by cases v <;> rfl
@[simp] theorem State.setFOpen_err (s : State) (n : FReg) (v : Option Elem) : (s.setFOpen n v).err = s.err :=
  by cases v <;> rfl
@[simp] theorem State.setFOpen_deg (s : State) (n : FReg) (v : Option Elem) : (s.setFOpen n v).deg = s.deg :=
  by cases v <;> rfl
@[simp] theorem State.setFOpen_trace (s : State) (n : FReg) (v : Option Elem) : (s.setFOpen n v).trace = s.trace :=
  by cases v <;> rfl
@[simp] theorem State.setFOpen_wrF (s : State) (n : FReg) (v : Option Elem) : (s.setFOpen n v).wrF = s.wrF.set n (BitVec.allOnes 30) :=
  by cases v <;> rfl
@[simp] theorem State.setFOpen_wrK (s : State) (n : FReg) (v : Option Elem) : (s.setFOpen n v).wrK = s.wrK :=
  by cases v <;> rfl
@[simp] theorem State.setFOpen_host (s : State) (n : FReg) (v : Option Elem) : (s.setFOpen n v).host = s.host :=
  by cases v <;> rfl
@[simp] theorem State.setFOpen_readData (s : State) (n : FReg) (v : Option Elem) : (s.setFOpen n v).readData = s.readData :=
  by cases v <;> rfl
@[simp] theorem State.setFOpen_rng (s : State) (n : FReg) (v : Option Elem) : (s.setFOpen n v).rng = s.rng :=
  by cases v <;> rfl
@[simp] theorem State.setFOpen_rngRequests (s : State) (n : FReg) (v : Option Elem) : (s.setFOpen n v).rngRequests = s.rngRequests :=
  by cases v <;> rfl

/-! ### `endRun` -/

@[simp] theorem State.endRun_f (s : State) (k : PReg) (r : PointRun) : (s.endRun k r).f = (s.f.set (xReg k) r.value.x).set (yReg k) r.value.y :=
  rfl
@[simp] theorem State.endRun_k (s : State) (k : PReg) (r : PointRun) : (s.endRun k r).k = s.k :=
  rfl
@[simp] theorem State.endRun_t (s : State) (k : PReg) (r : PointRun) : (s.endRun k r).t = s.t :=
  rfl
@[simp] theorem State.endRun_err (s : State) (k : PReg) (r : PointRun) : (s.endRun k r).err = s.err :=
  rfl
@[simp] theorem State.endRun_deg (s : State) (k : PReg) (r : PointRun) : (s.endRun k r).deg = s.deg :=
  rfl
@[simp] theorem State.endRun_trace (s : State) (k : PReg) (r : PointRun) : (s.endRun k r).trace = s.trace ++ r.events :=
  rfl
@[simp] theorem State.endRun_wrF (s : State) (k : PReg) (r : PointRun) : (s.endRun k r).wrF = (s.wrF.set (xReg k) (BitVec.allOnes 30)).set (yReg k) (BitVec.allOnes 30) :=
  rfl
@[simp] theorem State.endRun_wrK (s : State) (k : PReg) (r : PointRun) : (s.endRun k r).wrK = s.wrK :=
  rfl
@[simp] theorem State.endRun_draws (s : State) (k : PReg) (r : PointRun) : (s.endRun k r).draws = r.drawn :=
  rfl
@[simp] theorem State.endRun_host (s : State) (k : PReg) (r : PointRun) : (s.endRun k r).host = s.host :=
  rfl
@[simp] theorem State.endRun_readData (s : State) (k : PReg) (r : PointRun) : (s.endRun k r).readData = s.readData :=
  rfl
@[simp] theorem State.endRun_rng (s : State) (k : PReg) (r : PointRun) : (s.endRun k r).rng = s.rng :=
  rfl
@[simp] theorem State.endRun_rngRequests (s : State) (k : PReg) (r : PointRun) : (s.endRun k r).rngRequests = s.rngRequests :=
  rfl

@[simp] theorem State.setFOpen_some (s : State) (n : FReg) (v : Elem) :
    s.setFOpen n (some v) = s.setF n v := rfl

@[simp] theorem State.setFOpen_none (s : State) (n : FReg) :
    s.setFOpen n none =
      { s.setF n (Config.unspecified240 s.draws) with draws := s.draws + 1 } := rfl

end Sys2Proof.Machine
end

