-- ==== Sys2Proof/Laws/Ops.lean ====
section
/-! SUPPORT. What each shared operation does to the registers and to the bytes of the register space,
once: reads after writes, and the point registers as pairs of field registers. -/

set_option autoImplicit false

namespace Sys2Proof.Machine

/-! ### Field registers -/

/-- Writing a field register leaves every other one. -/
theorem State.freg_setF (s : State) (n m : FReg) (v : Elem) :
    (s.setF n v).freg m = if n = m then v else s.freg m := by
  simp only [State.freg, State.setF_f]
  have hm := m.isLt
  have hn := n.isLt
  by_cases h : n = m
  · subst h; simp
  · have h' : n.val ≠ m.val := fun e => h (Fin.ext e)
    simp [h, h']

@[simp] theorem State.freg_setF_self (s : State) (n : FReg) (v : Elem) :
    (s.setF n v).freg n = v := by simp [State.freg_setF]

theorem State.freg_setF_ne (s : State) {n m : FReg} (h : n ≠ m) (v : Elem) :
    (s.setF n v).freg m = s.freg m := by simp [State.freg_setF, h]

/-- Two states with the same field registers read the same. -/
theorem State.freg_congr {s t : State} (h : s.f = t.f) (n : FReg) : s.freg n = t.freg n := by
  simp [State.freg, h]

/-! ### Point registers -/

theorem xReg_ne_yReg (k l : PReg) : xReg k ≠ yReg l := by
  intro h
  have := congrArg Fin.val h
  simp only [xReg, yReg] at this
  omega

theorem xReg_inj {k l : PReg} (h : xReg k = xReg l) : k = l := by
  have := congrArg Fin.val h
  simp only [xReg] at this
  exact Fin.ext (by omega)

theorem yReg_inj {k l : PReg} (h : yReg k = yReg l) : k = l := by
  have := congrArg Fin.val h
  simp only [yReg] at this
  exact Fin.ext (by omega)

/-- Every field register is a coordinate of exactly one point register. -/
theorem freg_is_coordinate (n : FReg) : ∃ k : PReg, n = xReg k ∨ n = yReg k := by
  revert n; decide

/-- Writing a point register writes both halves of its pair and no other register. -/
theorem State.freg_setP (s : State) (k : PReg) (p : Point) (m : FReg) :
    (s.setP k p).freg m = if m = yReg k then p.y else if m = xReg k then p.x else s.freg m := by
  simp only [State.setP, State.freg_setF]
  split
  · rename_i h; simp [h.symm]
  · rename_i h
    split
    · rename_i h'; subst h'; simp [Ne.symm h]
    · rename_i h'; simp [Ne.symm h, Ne.symm h']

@[simp] theorem State.preg_setP_self (s : State) (k : PReg) (p : Point) :
    (s.setP k p).preg k = p := by
  simp [State.preg, State.freg_setP, xReg_ne_yReg]

theorem State.preg_setP_ne (s : State) {k l : PReg} (h : k ≠ l) (p : Point) :
    (s.setP k p).preg l = s.preg l := by
  have hx : xReg l ≠ xReg k := fun e => h (xReg_inj e).symm
  have hy : yReg l ≠ yReg k := fun e => h (yReg_inj e).symm
  simp [State.preg, State.freg_setP, xReg_ne_yReg, (xReg_ne_yReg k l).symm, hx, hy]

theorem State.preg_congr {s t : State} (h : s.f = t.f) (k : PReg) : s.preg k = t.preg k := by
  simp [State.preg, State.freg_congr h]

/-- The end of a run writes the run's pair to the destination. -/
@[simp] theorem State.preg_endRun_self (s : State) (k : PReg) (r : PointRun) :
    (s.endRun k r).preg k = r.value := by
  rw [← State.preg_setP_self s k r.value]
  exact State.preg_congr (by simp) k

/-- The end of a run leaves every field register outside the destination pair. -/
theorem State.freg_endRun_ne (s : State) (k : PReg) (r : PointRun) {m : FReg} (hx : m ≠ xReg k)
    (hy : m ≠ yReg k) : (s.endRun k r).freg m = s.freg m := by
  have : (s.endRun k r).freg m = (s.setP k r.value).freg m := State.freg_congr (by simp) m
  rw [this, State.freg_setP]
  simp [hx, hy]

/-! ### Bytes of the register space -/

/-- A byte of the register space depends only on the registers. -/
theorem State.readByte_congr {s t : State} (hf : s.f = t.f) (hk : s.k = t.k) (addr : Nat) :
    s.readByte addr = t.readByte addr := by
  simp only [State.readByte]
  congr 1
  funext sl
  cases sl <;> simp [State.slotByte, State.freg, hf, hk]

/-- A byte that is no byte of K or of a changed field register reads as before. -/
theorem State.readByte_of_slot {s t : State} {addr : Nat}
    (hf : ∀ n j, slotOf addr = some (.fByte n j) → t.freg n = s.freg n)
    (hk : ∀ j, slotOf addr = some (.kByte j) → t.k = s.k) :
    t.readByte addr = s.readByte addr := by
  simp only [State.readByte]
  cases h : slotOf addr with
  | none => rfl
  | some sl =>
    cases sl with
    | fByte n j => simp [State.slotByte, hf n j h]
    | kByte j => simp [State.slotByte, hk j h]
    | pad => rfl

/-- Every data-window offset addresses a slot, and no other offset does (R30). -/
theorem slotOf_isSome (addr : Nat) : (slotOf addr).isSome = true ↔ addr < 0x220 := by
  unfold slotOf
  split
  · simp; omega
  · split
    · simp; omega
    · split <;> simp_all

/-- The bits of an internal byte (R31). -/
theorem getLsbD_elemByte (v : Elem) (j i : Nat) :
    (elemByte v j).getLsbD i = (decide (i < 8) && v.getLsbD (8 * j + i)) := by
  simp [elemByte]

/-- The bits of a register after one of its bytes is written: the eight of that byte are replaced,
the others are kept (R31, R37). -/
theorem getLsbD_setElemByte (v : Elem) (j : Nat) (b : Byte) (i : Nat) (hi : i < 240) :
    (setElemByte v j b).getLsbD i =
      if 8 * j ≤ i ∧ i < 8 * j + 8 then b.getLsbD (i - 8 * j) else v.getLsbD i := by
  have hm : ∀ m < 240, (0xFF : Elem).getLsbD m = decide (m < 8) := by
    intro m h
    rw [show (0xFF : Elem) = (BitVec.allOnes 8).setWidth 240 by decide, BitVec.getLsbD_setWidth,
      BitVec.getLsbD_allOnes]
    simp [h]
  simp only [setElemByte, BitVec.getLsbD_or, BitVec.getLsbD_and, BitVec.getLsbD_not,
    BitVec.getLsbD_shiftLeft, BitVec.getLsbD_setWidth, hi, decide_true, Bool.true_and]
  by_cases h1 : i < 8 * j
  · simp [h1, show ¬(8 * j ≤ i ∧ i < 8 * j + 8) by omega]
  · have hlt : i - 8 * j < 240 := by omega
    rw [hm _ hlt]
    by_cases h2 : i < 8 * j + 8
    · have : i - 8 * j < 8 := by omega
      simp [h1, show 8 * j ≤ i ∧ i < 8 * j + 8 by omega, this, hlt]
    · have h3 : ¬ i - 8 * j < 8 := by omega
      have h4 : b.getLsbD (i - 8 * j) = false := BitVec.getLsbD_of_ge _ _ (by omega)
      simp [h1, show ¬(8 * j ≤ i ∧ i < 8 * j + 8) by omega, h3, h4]

/-- The byte written reads back. -/
@[simp] theorem elemByte_setElemByte_self (v : Elem) (j : Fin 30) (b : Byte) :
    elemByte (setElemByte v j b) j = b := by
  apply BitVec.eq_of_getLsbD_eq
  intro i hi
  rw [getLsbD_elemByte, getLsbD_setElemByte _ _ _ _ (by omega)]
  simp [hi]

/-- Writing a byte leaves the others. -/
theorem elemByte_setElemByte_ne (v : Elem) {j l : Fin 30} (h : j ≠ l) (b : Byte) :
    elemByte (setElemByte v j b) l = elemByte v l := by
  have hne : j.val ≠ l.val := fun e => h (Fin.ext e)
  apply BitVec.eq_of_getLsbD_eq
  intro i hi
  rw [getLsbD_elemByte, getLsbD_elemByte, getLsbD_setElemByte _ _ _ _ (by omega)]
  rw [if_neg (by omega)]

/-- Writing a slot: the written slot reads as the byte (a pad byte as 0), every other as before. -/
theorem State.slotByte_setSlot (s : State) (b : Byte) (w r : Slot) :
    (s.setSlot b w).slotByte r = if w = r ∧ w ≠ .pad then b else s.slotByte r := by
  cases w with
  | pad => simp [State.setSlot]
  | kByte j =>
    cases r with
    | kByte l =>
      by_cases h : j = l
      · subst h; simp [State.setSlot, State.slotByte]
      · simp [State.setSlot, State.slotByte, h, elemByte_setElemByte_ne _ h]
    | fByte n l => simp [State.setSlot, State.slotByte, State.freg]
    | pad => simp [State.slotByte]
  | fByte n j =>
    cases r with
    | kByte l => simp [State.setSlot, State.slotByte]
    | pad => simp [State.slotByte]
    | fByte m l =>
      by_cases h : n = m
      · subst h
        by_cases h2 : j = l
        · subst h2; simp [State.setSlot, State.slotByte, State.freg]
        · simp [State.setSlot, State.slotByte, State.freg, h2, elemByte_setElemByte_ne _ h2]
      · have h' : n.val ≠ m.val := fun e => h (Fin.ext e)
        simp [State.setSlot, State.slotByte, State.freg, h, h']

end Sys2Proof.Machine
end

