-- ==== Sys2Proof/Laws/PerInstr.lean ====
section
/-! SUPPORT. The fields of an assembled command word, and one fact about every command's encoding,
constructor by constructor: its word selects its row of the opcode table. -/

set_option autoImplicit false

namespace Sys2Proof

/-! ### Reading the fields of an assembled word (R45) -/

@[simp] theorem opField_assemble (op : BitVec 8) (rd ra rb : BitVec 4) (imm : BitVec 12) :
    opField (assemble op rd ra rb imm) = op := by
  apply BitVec.eq_of_getLsbD_eq
  intro i hi
  unfold opField assemble
  rw [BitVec.getLsbD_extractLsb']
  simp only [BitVec.getLsbD_append, hi, decide_true, Bool.true_and]
  repeat' split
  all_goals first | omega | (congr 1; omega)

@[simp] theorem rdField_assemble (op : BitVec 8) (rd ra rb : BitVec 4) (imm : BitVec 12) :
    rdField (assemble op rd ra rb imm) = rd := by
  apply BitVec.eq_of_getLsbD_eq
  intro i hi
  unfold rdField assemble
  rw [BitVec.getLsbD_extractLsb']
  simp only [BitVec.getLsbD_append, hi, decide_true, Bool.true_and]
  repeat' split
  all_goals first | omega | (congr 1; omega)

@[simp] theorem raField_assemble (op : BitVec 8) (rd ra rb : BitVec 4) (imm : BitVec 12) :
    raField (assemble op rd ra rb imm) = ra := by
  apply BitVec.eq_of_getLsbD_eq
  intro i hi
  unfold raField assemble
  rw [BitVec.getLsbD_extractLsb']
  simp only [BitVec.getLsbD_append, hi, decide_true, Bool.true_and]
  repeat' split
  all_goals first | omega | (congr 1; omega)

@[simp] theorem rbField_assemble (op : BitVec 8) (rd ra rb : BitVec 4) (imm : BitVec 12) :
    rbField (assemble op rd ra rb imm) = rb := by
  apply BitVec.eq_of_getLsbD_eq
  intro i hi
  unfold rbField assemble
  rw [BitVec.getLsbD_extractLsb']
  simp only [BitVec.getLsbD_append, hi, decide_true, Bool.true_and]
  repeat' split
  all_goals first | omega | (congr 1; omega)

@[simp] theorem immField_assemble (op : BitVec 8) (rd ra rb : BitVec 4) (imm : BitVec 12) :
    immField (assemble op rd ra rb imm) = imm := by
  apply BitVec.eq_of_getLsbD_eq
  intro i hi
  unfold immField assemble
  rw [BitVec.getLsbD_extractLsb']
  simp only [BitVec.getLsbD_append, hi, decide_true, Bool.true_and]
  repeat' split
  all_goals first | omega | (congr 1; omega)

/-- Masking works field by field. -/
theorem assemble_and (a a' : BitVec 8) (b b' c c' d d' : BitVec 4) (e e' : BitVec 12) :
    assemble a b c d e &&& assemble a' b' c' d' e' =
      assemble (a &&& a') (b &&& b') (c &&& c') (d &&& d') (e &&& e') := by
  show (a ++ b ++ c ++ d ++ e) &&& (a' ++ b' ++ c' ++ d' ++ e') = _
  simp only [BitVec.and_append, assemble]

/-- A field index leaves bit 3 of its register field 0. -/
@[simp] theorem ofFReg_and (n : FReg) : ofFReg n &&& 0x8 = 0 := by revert n; decide

/-- A point index leaves bits 3 and 2 of its register field 0. -/
@[simp] theorem ofPReg_and (k : PReg) : ofPReg k &&& 0xC = 0 := by revert k; decide

/-! ### The row of each command -/

/-- The word of a command selects its row of spec/opcode_table.json (R44, R48). -/
def Laws.EncodeRow.Statement (i : Instr) : Prop := (tableRow i).selects (encode i) = true

/-- A word selects a row when masking it, field by field, gives the row's pattern. -/
theorem selects_of_fields {r : TableRow} {w : Word} {m : Word} (hm : r.mask = m)
    (h : w &&& m = r.pattern) : r.selects w = true := by
  simp [TableRow.selects, hm, h]

theorem Laws.EncodeRow.fadd (rd ra rb : FReg) : Laws.EncodeRow.Statement (.fadd rd ra rb) :=
  selects_of_fields (m := assemble 0xFF 0x8 0x8 0x8 0xFFF) rfl
    (by rw [encode, assemble_and]; simp only [ofFReg_and]; rfl)

theorem Laws.EncodeRow.fmul (rd ra rb : FReg) : Laws.EncodeRow.Statement (.fmul rd ra rb) :=
  selects_of_fields (m := assemble 0xFF 0x8 0x8 0x8 0xFFF) rfl
    (by rw [encode, assemble_and]; simp only [ofFReg_and]; rfl)

theorem Laws.EncodeRow.fsqr (rd ra : FReg) : Laws.EncodeRow.Statement (.fsqr rd ra) :=
  selects_of_fields (m := assemble 0xFF 0x8 0x8 0xF 0xFFF) rfl
    (by rw [encode, assemble_and]; simp only [ofFReg_and]; rfl)

theorem Laws.EncodeRow.finv (rd ra : FReg) : Laws.EncodeRow.Statement (.finv rd ra) :=
  selects_of_fields (m := assemble 0xFF 0x8 0x8 0xF 0xFFF) rfl
    (by rw [encode, assemble_and]; simp only [ofFReg_and]; rfl)

theorem Laws.EncodeRow.fisz (ra : FReg) : Laws.EncodeRow.Statement (.fisz ra) :=
  selects_of_fields (m := assemble 0xFF 0xF 0x8 0xF 0xFFF) rfl
    (by rw [encode, assemble_and]; simp only [ofFReg_and]; rfl)

theorem Laws.EncodeRow.feq (ra rb : FReg) : Laws.EncodeRow.Statement (.feq ra rb) :=
  selects_of_fields (m := assemble 0xFF 0xF 0x8 0x8 0xFFF) rfl
    (by rw [encode, assemble_and]; simp only [ofFReg_and]; rfl)

theorem Laws.EncodeRow.fdeg (ra : FReg) : Laws.EncodeRow.Statement (.fdeg ra) :=
  selects_of_fields (m := assemble 0xFF 0xF 0x8 0xF 0xFFF) rfl
    (by rw [encode, assemble_and]; simp only [ofFReg_and]; rfl)

theorem Laws.EncodeRow.pdbl (rd : PReg) : Laws.EncodeRow.Statement (.pdbl rd) :=
  selects_of_fields (m := assemble 0xFF 0xC 0xF 0xF 0xFFF) rfl
    (by rw [encode, assemble_and]; simp only [ofPReg_and]; rfl)

theorem Laws.EncodeRow.padd (rd ra : PReg) : Laws.EncodeRow.Statement (.padd rd ra) :=
  selects_of_fields (m := assemble 0xFF 0xC 0xC 0xF 0xFFF) rfl
    (by rw [encode, assemble_and]; simp only [ofPReg_and]; rfl)

theorem Laws.EncodeRow.pval (ra : PReg) : Laws.EncodeRow.Statement (.pval ra) :=
  selects_of_fields (m := assemble 0xFF 0xF 0xC 0xF 0xFFF) rfl
    (by rw [encode, assemble_and]; simp only [ofPReg_and]; rfl)

theorem Laws.EncodeRow.pisz (ra : PReg) : Laws.EncodeRow.Statement (.pisz ra) :=
  selects_of_fields (m := assemble 0xFF 0xF 0xC 0xF 0xFFF) rfl
    (by rw [encode, assemble_and]; simp only [ofPReg_and]; rfl)

theorem Laws.EncodeRow.smul (rd ra : PReg) (bw : BitVec 12) : Laws.EncodeRow.Statement (.smul rd ra bw) :=
  selects_of_fields (m := assemble 0xFF 0xC 0xC 0xF 0x000) rfl
    (by rw [encode, assemble_and]; rw [show bw &&& 0x000 = 0 from BitVec.and_zero]; simp only [ofPReg_and]; rfl)

theorem Laws.EncodeRow.kgen (rd : PReg) : Laws.EncodeRow.Statement (.kgen rd) :=
  selects_of_fields (m := assemble 0xFF 0xC 0xF 0xF 0xFFF) rfl
    (by rw [encode, assemble_and]; simp only [ofPReg_and]; rfl)

theorem Laws.EncodeRow.ssec (rd ra : PReg) : Laws.EncodeRow.Statement (.ssec rd ra) :=
  selects_of_fields (m := assemble 0xFF 0xC 0xC 0xF 0xFFF) rfl
    (by rw [encode, assemble_and]; simp only [ofPReg_and]; rfl)

end Sys2Proof
end

