-- ==== Sys2Proof/Laws/PointRun.lean ====
section
/-! SUPPORT. The point engine's runs: what one doubling and one addition do, and that the accumulator
of a scalar multiplication does not depend on the trace or on the draw counter. -/

set_option autoImplicit false

namespace Sys2Proof.Machine

@[simp] theorem State.startRun_acc (s : State) (p : Point) : (s.startRun p).acc = some p := rfl

@[simp] theorem State.startRun_events (s : State) (p : Point) : (s.startRun p).events = [] := rfl

@[simp] theorem State.startRun_draws (s : State) (p : Point) : (s.startRun p).draws = s.draws := rfl

@[simp] theorem PointRun.double_acc (r : PointRun) : r.double.acc = r.acc.bind pointDouble := rfl

@[simp] theorem PointRun.add_acc (r : PointRun) (q : Point) :
    (r.add q).acc = r.acc.bind fun a => pointAdd a q := rfl

@[simp] theorem PointRun.double_events (r : PointRun) :
    r.double.events = r.events ++ .dbl :: doubleEvents r.value := rfl

@[simp] theorem PointRun.add_events (r : PointRun) (q : Point) :
    (r.add q).events = r.events ++ .add :: addEvents r.value q := rfl

@[simp] theorem PointRun.double_draws (r : PointRun) : r.double.draws = r.drawn := rfl

@[simp] theorem PointRun.add_draws (r : PointRun) (q : Point) : (r.add q).draws = r.drawn := rfl

/-- A specified accumulator is the run's value, and reading it draws nothing. -/
theorem PointRun.value_of_some {r : PointRun} {p : Point} (h : r.acc = some p) :
    r.value = p ∧ r.drawn = r.draws := by simp [PointRun.value, PointRun.drawn, h]

/-- An unspecified accumulator is read as two fresh draws. -/
theorem PointRun.value_of_none {r : PointRun} (h : r.acc = none) :
    r.value = unspecifiedPoint r.draws ∧ r.drawn = r.draws + 2 := by
  simp [PointRun.value, PointRun.drawn, h]

/-- One more iteration at the front of the loop (R88). -/
theorem scalarLoop_succ (p : Point) (k : Elem) (i : Nat) (r : PointRun) :
    scalarLoop p k (i + 1) r =
      scalarLoop p k i (r.double.add (if k.getLsbD i then p else inf)) := rfl

/-- The loop's accumulator depends on the accumulator it starts from and on nothing else of the
run. -/
theorem scalarLoop_acc_congr (p : Point) (k : Elem) (n : Nat) {r r' : PointRun}
    (h : r.acc = r'.acc) : (scalarLoop p k n r).acc = (scalarLoop p k n r').acc := by
  induction n generalizing r r' with
  | zero => exact h
  | succ i ih => exact ih (by simp [h])

/-- The run of a scalar multiplication inside a command has the value of `ScalarMul`. -/
@[simp] theorem State.scalarRun_acc (s : State) (p : Point) (k : Elem) (bw : Nat) :
    (s.scalarRun p k bw).acc = scalarMul p k bw :=
  scalarLoop_acc_congr p k bw rfl

/-- Once unspecified, the accumulator stays unspecified (R88). -/
theorem scalarLoop_none (p : Point) (k : Elem) (n : Nat) {r : PointRun} (h : r.acc = none) :
    (scalarLoop p k n r).acc = none := by
  induction n generalizing r with
  | zero => exact h
  | succ i ih => exact ih (by simp [h])

/-- The loop over bw + 1 bits is the loop over the bits above the lowest, then one iteration by the
lowest bit: accumulator, events and draws (R88, R90). -/
theorem scalarLoop_succ_last (p : Point) (k : Elem) (n : Nat) (r : PointRun) :
    scalarLoop p k (n + 1) r =
      ((scalarLoop p (k >>> 1) n r).double.add (if k.getLsbD 0 then p else inf)) := by
  induction n generalizing r with
  | zero => rfl
  | succ n ih =>
    rw [scalarLoop_succ, ih, scalarLoop_succ, BitVec.getLsbD_ushiftRight, Nat.add_comm 1 n]

/-- The same for the run of a command. -/
theorem State.scalarRun_succ (s : State) (p : Point) (k : Elem) (bw : Nat) :
    s.scalarRun p k (bw + 1) =
      ((s.scalarRun p (k >>> 1) bw).double.add (if k.getLsbD 0 then p else inf)) :=
  scalarLoop_succ_last p k bw _

end Sys2Proof.Machine
end

