-- ==== Sys2Proof/Laws/Step.lean ====
section
/-! SUPPORT. What one step can do: it takes the host's next action, and each kind of action has one
equation; `step_cases` says all of them at once. -/

set_option autoImplicit false

namespace Sys2Proof.Machine

/-- No action pending: the unit is idle (R120). -/
theorem step_idle {s : State} (h : s.host = []) : step s = .next s := by
  simp [step, stepHost, h]

/-- The next action takes effect on the state it was taken from (R39). -/
theorem step_action {s : State} {a : HostAction} {rest : List HostAction} (h : s.host = a :: rest) :
    step s = hostAction a { s with host := rest } := by
  simp [step, stepHost, h]

/-- Four bytes written to CMD run the command they hold (R20). -/
theorem busWrite_cmd (w : Word) (s : State) :
    busWrite cmdAddr (wordBytes w) s = runCommand (wordBytes w) s := by
  simp [busWrite, wordBytes]

/-- The four bytes of a word hold the word (R35). -/
@[simp] theorem bytesWord_wordBytes (w : Word) : bytesWord (wordBytes w) = some w := by
  simp only [bytesWord, wordBytes, Option.some.injEq]
  apply BitVec.eq_of_getLsbD_eq
  intro i hi
  simp only [BitVec.getLsbD_append, BitVec.getLsbD_extractLsb']
  repeat' split
  all_goals first | (simp; done) | (rw [decide_eq_true (by omega), Bool.true_and]; congr 1; omega)

@[simp] theorem decodeBytes_wordBytes (w : Word) : decodeBytes (wordBytes w) = decode w := by
  simp [decodeBytes]

/-- A legal word is run, an illegal one is InvalidArgument (R20, R52). -/
theorem runCommand_wordBytes (w : Word) (s : State) :
    runCommand (wordBytes w) s =
      match decode w with
      | .ok i => exec i s
      | .error _ => .next s.illegalCommand := by
  cases h : decode w <;> simp [runCommand, h]

/-- Everything a step that answers a next state can have done: nothing (idle), a read, a byte write,
an illegal command, a command, or the reset event. -/
theorem step_cases {s t : State} (h : step s = .next t) :
    (s.host = [] ∧ t = s) ∨
    ∃ a rest, s.host = a :: rest ∧
      ((∃ addr n bs, a = .read addr n ∧ s.memRead addr n = some bs ∧
          t = { s with host := rest, readData := bs }) ∨
        (∃ addr b slot, a = .write addr [b] ∧ slotOf addr = some slot ∧
          t = ({ s with host := rest }).setSlot b slot) ∨
        (∃ bs e, a = .write cmdAddr bs ∧ bs.length = 4 ∧ decodeBytes bs = .error e ∧
          t = ({ s with host := rest }).illegalCommand) ∨
        (∃ bs i, a = .write cmdAddr bs ∧ bs.length = 4 ∧ decodeBytes bs = .ok i ∧
          exec i { s with host := rest } = .next t) ∨
        (a = .reset ∧ t = ({ s with host := rest }).resetEvent)) := by
  cases hh : s.host with
  | nil =>
    rw [step_idle hh] at h
    exact .inl ⟨rfl, by injection h with h; exact h.symm⟩
  | cons a rest =>
    refine .inr ⟨a, rest, rfl, ?_⟩
    rw [step_action hh] at h
    cases a with
    | read addr n =>
      simp only [hostAction, busRead] at h
      split at h
      · rename_i bs hb
        injection h with h
        exact .inl ⟨addr, n, bs, rfl, hb, h.symm⟩
      · cases h
    | reset => exact .inr (.inr (.inr (.inr ⟨rfl, by injection h with h; exact h.symm⟩)))
    | write addr bs =>
      simp only [hostAction, busWrite] at h
      split at h
      · rename_i b
        split at h
        · rename_i slot hs
          injection h with h
          exact .inr (.inl ⟨addr, b, slot, rfl, hs, h.symm⟩)
        · cases h
      · split at h
        · rename_i hc
          obtain ⟨rfl, hl⟩ := hc
          simp only [runCommand] at h
          split at h
          · rename_i i hi
            exact .inr (.inr (.inr (.inl ⟨bs, i, rfl, hl, hi, h⟩)))
          · rename_i e he
            injection h with h
            exact .inr (.inr (.inl ⟨bs, e, rfl, hl, he, h.symm⟩))
        · cases h

end Sys2Proof.Machine
end

