-- ==== Sys2Proof/Laws/Safety.lean ====
section
/-! SUPPORT. How to establish the predicates of Safety.lean: a command's frame from its register
updates, what counts as written, canonical form bit by bit, the point-level part of a trace, and the
degree search. -/

set_option autoImplicit false

namespace Sys2Proof

/-- Canonical form, bit by bit (R13). -/
theorem canonical_iff (a : Elem) : canonical a = true ↔ ∀ i, 233 ≤ i → a.getLsbD i = false := by
  simp only [canonical, beq_iff_eq]
  constructor
  · intro h i hi
    have := congrArg (fun v => v.getLsbD (i - 233)) h
    simp only [BitVec.getLsbD_ushiftRight, show 233 + (i - 233) = i by omega] at this
    simpa using this
  · intro h
    apply BitVec.eq_of_getLsbD_eq
    intro i _
    simp [BitVec.getLsbD_ushiftRight, h (233 + i) (by omega)]

/-- The bits of a remainder above 232 are zero (R57). -/
theorem canonical_reduce {w : Nat} (c : BitVec w) : canonical (reduce c) = true := by
  rw [canonical_iff]
  intro i hi
  simp only [reduce, BitVec.getLsbD_setWidth]
  simp [show ¬ i < 233 by omega]

/-- The search of `degree` finds a set bit below its bound with none above it, or none at all
(R67). -/
theorem topBit_cases (a : Elem) (n : Nat) :
    (topBit a n < n ∧ a.getLsbD (topBit a n) = true ∧
      ∀ i < n, topBit a n < i → a.getLsbD i = false) ∨
    (topBit a n = 0 ∧ ∀ i < n, a.getLsbD i = false) := by
  induction n with
  | zero => exact .inr ⟨rfl, fun i hi => absurd hi (Nat.not_lt_zero i)⟩
  | succ n ih =>
    simp only [topBit]
    split
    · rename_i h
      exact .inl ⟨Nat.lt_succ_self n, h, fun i hi h' => absurd h' (by omega)⟩
    · rename_i h
      have h0 : a.getLsbD n = false := by simpa using h
      rcases ih with ⟨h1, h2, h3⟩ | ⟨h1, h2⟩
      · refine .inl ⟨by omega, h2, fun i hi h' => ?_⟩
        by_cases e : i = n
        · subst e; exact h0
        · exact h3 i (by omega) h'
      · refine .inr ⟨h1, fun i hi => ?_⟩
        by_cases e : i = n
        · subst e; exact h0
        · exact h2 i (by omega)

namespace Machine

/-- `keepsF` from the registers alone: the bytes of the register space follow. -/
theorem State.keepsF_of {s t : State} {dst : List FReg}
    (h : ∀ n, n ∉ dst → t.freg n = s.freg n ∧ t.wrF[n] = s.wrF[n]) : s.keepsF dst t := by
  refine ⟨h, fun addr h1 h2 => State.readByte_of_slot (fun n j hs => (h n ?_).1) ?_⟩
  · exact fun hn => h1 n hn j hs
  · exact fun j hs => absurd hs (h2 j)

/-- A command that writes one field register keeps the others. -/
theorem State.keepsF_set {s t : State} {n : FReg} {v : Elem} {m : BitVec 30}
    (hf : t.f = s.f.set n v) (hw : t.wrF = s.wrF.set n m) : s.keepsF [n] t := by
  refine State.keepsF_of fun l hl => ?_
  have hne : n.val ≠ l.val := fun e => hl (by simp [Fin.ext e])
  simp [State.freg, hf, hw, hne]

/-- A command that writes no field register keeps them all. -/
theorem State.keepsF_none {s t : State} (hf : t.f = s.f) (hw : t.wrF = s.wrF) : s.keepsF [] t :=
  State.keepsF_of fun n _ => by simp [State.freg, hf, hw]

/-- A command that ends a run keeps every field register outside its destination pair. -/
theorem State.keepsF_pair {s t : State} {k : PReg} {x y : Elem} {m m' : BitVec 30}
    (hf : t.f = (s.f.set (xReg k) x).set (yReg k) y)
    (hw : t.wrF = (s.wrF.set (xReg k) m).set (yReg k) m') : s.keepsF [xReg k, yReg k] t := by
  refine State.keepsF_of fun l hl => ?_
  have hx : (xReg k).val ≠ l.val := fun e => hl (by simp [← Fin.ext e])
  have hy : (yReg k).val ≠ l.val := fun e => hl (by simp [← Fin.ext e])
  simp [State.freg, hf, hw, hx, hy]

/-- `keepsK` from K alone. -/
theorem State.keepsK_of {s t : State} (h : t.k = s.k) (h' : t.wrK = s.wrK) : s.keepsK t :=
  ⟨h, h', fun _ _ hs => State.readByte_of_slot (fun _ _ hs' => by rw [hs] at hs'; cases hs')
    fun _ _ => h⟩

/-! ### What counts as written (R27) -/

/-- A register whose mask is written whole counts as written. -/
theorem State.fullF_of {s : State} {n : FReg} (h : s.wrF[n] = BitVec.allOnes 30) :
    s.fullF n = true := by simp [State.fullF, h]

/-- A command that writes one field register whole marks it. -/
theorem State.fullF_set {s t : State} {n : FReg} (h : t.wrF = s.wrF.set n (BitVec.allOnes 30)) :
    t.fullF n = true := State.fullF_of (by simp [h])

/-- A command that writes a pair whole marks both its halves. -/
theorem State.fullP_pair {s t : State} {k : PReg}
    (h : t.wrF = (s.wrF.set (xReg k) (BitVec.allOnes 30)).set (yReg k) (BitVec.allOnes 30)) :
    t.fullP k = true := by
  have hne : (yReg k).val ≠ (xReg k).val := fun e => xReg_ne_yReg k k (Fin.ext e.symm)
  simp [State.fullP, State.fullF, h, hne]

@[simp] theorem State.fullF_setF_self (s : State) (n : FReg) (v : Elem) :
    (s.setF n v).fullF n = true := State.fullF_set (s := s) (by simp)

@[simp] theorem State.fullF_setFOpen_self (s : State) (n : FReg) (v : Option Elem) :
    (s.setFOpen n v).fullF n = true := State.fullF_set (s := s) (by simp)

@[simp] theorem State.fullP_endRun_self (s : State) (k : PReg) (r : PointRun) :
    (s.endRun k r).fullP k = true := State.fullP_pair (s := s) (by simp)

@[simp] theorem State.fullK_setK (s : State) (v : Elem) : (s.setK v).fullK = true := by
  simp [State.fullK]

/-- One bit of a mask after bit `j` is set. -/
theorem getLsbD_mark (m : BitVec 30) (j l : Fin 30) :
    (m ||| 1 <<< j.val).getLsbD l = (decide (l = j) || m.getLsbD l) := by
  have h : (1 <<< j.val : BitVec 30) = BitVec.twoPow 30 j := rfl
  rw [BitVec.getLsbD_or, h, BitVec.getLsbD_twoPow, Bool.or_comm]
  simp [Fin.ext_iff, eq_comm]

/-- Writing a slot marks the byte it addresses and no other. -/
theorem State.slotWritten_setSlot (s : State) (b : Byte) (w r : Slot) :
    (s.setSlot b w).slotWritten r = if r = w then true else s.slotWritten r := by
  cases w with
  | pad => cases r <;> simp [State.setSlot, State.slotWritten]
  | kByte j =>
    cases r with
    | kByte l =>
      simp only [State.setSlot, State.slotWritten, getLsbD_mark, Slot.kByte.injEq]
      by_cases h : l = j <;> simp [h]
    | fByte n l => simp [State.setSlot, State.slotWritten]
    | pad => simp [State.slotWritten]
  | fByte n j =>
    cases r with
    | kByte l => simp [State.setSlot, State.slotWritten]
    | pad => simp [State.slotWritten]
    | fByte m l =>
      by_cases hm : m = n
      · subst hm
        simp only [State.setSlot, State.slotWritten, Fin.getElem_fin, Vector.getElem_set_self,
          getLsbD_mark, Slot.fByte.injEq, true_and]
        by_cases h : l = j <;> simp [h]
      · have h' : n.val ≠ m.val := fun e => hm (Fin.ext e.symm)
        simp [State.setSlot, State.slotWritten, hm, h']

/-- The point level of a trace, part by part (R133). -/
@[simp] theorem pointLevel_append (es fs : List Event) :
    pointLevel (es ++ fs) = pointLevel es ++ pointLevel fs := by simp [pointLevel]

@[simp] theorem pointLevel_dbl (es : List Event) : pointLevel (.dbl :: es) = .dbl :: pointLevel es :=
  rfl

@[simp] theorem pointLevel_add (es : List Event) : pointLevel (.add :: es) = .add :: pointLevel es :=
  rfl

@[simp] theorem pointLevel_nil : pointLevel [] = [] := rfl

/-- The point functions emit field-level events only (R133, R134). -/
@[simp] theorem pointLevel_doubleEvents (p : Point) : pointLevel (doubleEvents p) = [] := by
  simp only [doubleEvents]
  split
  · rfl
  · split <;> rfl

@[simp] theorem pointLevel_addEvents (p q : Point) : pointLevel (addEvents p q) = [] := by
  simp only [addEvents]
  split
  · rfl
  · split
    · rfl
    · split
      · exact pointLevel_doubleEvents p
      · split
        · rfl
        · split <;> rfl

@[simp] theorem pointLevel_validEvents (p : Point) : pointLevel (validEvents p) = [] := by
  simp only [validEvents]
  split
  · rfl
  · split <;> rfl

/-- Two states always agree with themselves. -/
theorem State.agree_refl (s : State) : s.agree s := ⟨fun _ _ _ => rfl, fun _ _ => rfl, rfl⟩

end Machine

end Sys2Proof
end

