-- ==== Sys2Proof/Tests/Slice0.lean ====
section
/-! SUPPORT. Tests of the model on the spec's own small examples (95_test_vectors.md and the worked
example of each command's rule), the smoke tests of `Instr.wf`, and for every obligation with
hypotheses a concrete state and operands that meet them (`witness_<its name>`). -/

set_option autoImplicit false
-- One theorem at a time: checking them all at once asks for more threads than the memory limit holds.
set_option Elab.async false

namespace Sys2Proof.Machine.Tests

/-! ### Helpers -/

/-- The state a command leaves. -/
def after (i : Instr) (s : State) : State :=
  match exec i s with
  | .next t => t
  | .fault _ => s
  | .refused _ => s

/-- The state one step leaves when the word is the next one written to CMD. -/
def afterWord (w : Nat) (s : State) : State :=
  match step (s.withFetchWord 32 w) with
  | .next t => t
  | .fault _ => s
  | .refused _ => s

/-- `F0 = x, F1 = y`, the rest as after reset; so `P0 = (x, y)`. -/
def pair (x y : Elem) : State := (State.reset.setF 0 x).setF 1 y

/-- `P0 = p, P1 = q, K = k`. -/
def points (p q : Point) (k : Elem) : State := ((State.reset.setP 0 p).setP 1 q).setK k

/-- An answer of 30 bytes, all zero but the last. -/
def answer (ok : Bool) (last : Byte) : RngAnswer := ⟨ok, Vector.ofFn fun i => if i.val = 29 then last else 0⟩

/-- The source will give `a` next. -/
def withAnswer (a : RngAnswer) : State := { State.reset with rng := [a] }

/-! ### Well-formedness: an ill-formed term for each check (R51, R50) -/

theorem test_wf_fmul_alias : (Instr.fmul 1 0 1).wf = false ∧ (Instr.fmul 1 1 0).wf = true := by
  decide

theorem test_wf_smul_width : (Instr.smul 0 1 241).wf = false ∧ (Instr.smul 0 1 240).wf = true := by
  decide

/-! ### Decoding: the words of R53 and of 95_test_vectors.md 2.5 -/

theorem test_decode_field :
    decode 0x01201000 = .ok (.fadd 2 0 1) ∧ decode 0x02201000 = .ok (.fmul 2 0 1) ∧
    decode 0x03330000 = .ok (.fsqr 3 3) ∧ decode 0x04100000 = .ok (.finv 1 0) ∧
    decode 0x05070000 = .ok (.fisz 7) ∧ decode 0x06025000 = .ok (.feq 2 5) ∧
    decode 0x07040000 = .ok (.fdeg 4) := by decide

theorem test_decode_point :
    decode 0x10100000 = .ok (.pdbl 1) ∧ decode 0x11010000 = .ok (.padd 0 1) ∧
    decode 0x12020000 = .ok (.pval 2) ∧ decode 0x13030000 = .ok (.pisz 3) := by decide

theorem test_decode_scalar_protocol :
    decode 0x200100E9 = .ok (.smul 0 1 233) ∧ decode 0x20220003 = .ok (.smul 2 2 3) ∧
    decode 0x30000000 = .ok (.kgen 0) ∧ decode 0x31210000 = .ok (.ssec 2 1) := by decide

theorem test_decode_illegal :
    decode 0x00000000 = .error .reservedOpcode ∧ decode 0x08000000 = .error .reservedOpcode ∧
    decode 0x01801000 = .error .indexOutOfRange ∧
    decode 0x01201001 = .error .immediateNonzero ∧
    decode 0x03301000 = .error .unusedFieldNonzero ∧
    decode 0x05170000 = .error .unusedFieldNonzero ∧
    decode 0x07040001 = .error .immediateNonzero ∧
    decode 0x02101000 = .error .multiplyAliased ∧
    decode 0x203100F1 = .error .widthTooLarge := by decide

/-- FCLR expands to 0x01ddd000 (R54). -/
theorem test_encode_fclr : encode (fclr 2) = 0x01222000 := by decide

/-- CMD is written little-endian when split into bytes (R35). -/
theorem test_wordBytes : wordBytes 0x01201000 = [0x00, 0x10, 0x20, 0x01] := by decide

theorem test_decodeTableWord : decodeTableWord 32 0x31210000 = some (.ssec 2 1) := by decide

/-! ### Field commands (examples of R61 to R67) -/

theorem test_fadd : (after (.fadd 2 0 1) (pair 3 5)).freg 2 = 6 := by decide +kernel

theorem test_fadd_no_reduction :
    (after (.fadd 0 0 1) (pair ((1 : Elem) <<< 239) 1)).freg 0 = (1 : Elem) <<< 239 ^^^ 1 := by
  decide +kernel

theorem test_fmul :
    (after (.fmul 2 0 1) (pair 2 ((1 : Elem) <<< 232))).freg 2 = 0x4000000000000000001 := by
  decide +kernel

theorem test_fmul_alias :
    (after (.fmul 1 0 1) (pair 3 5)).freg 1 = 5 ∧ (after (.fmul 1 0 1) (pair 3 5)).err = 1 := by
  decide +kernel

theorem test_fsqr :
    (after (.fsqr 1 0) (pair ((1 : Elem) <<< 117) 0)).freg 1 = 0x8000000000000000002 := by
  decide +kernel

theorem test_fsqr_noncanonical :
    (after (.fsqr 0 0) (pair (BitVec.allOnes 240) 0)).freg 0 =
      0x015555555555555555540000000000000000000002AAAAAAAAAAAAAABFFF := by decide +kernel

theorem test_finv_one : (after (.finv 1 0) (pair 1 0)).freg 1 = 1 := by
  have h : fInv ((pair 1 0).freg 0) = some 1 := by
    rw [show (pair 1 0).freg 0 = 1#240 by decide +kernel]
    exact fInv_one
  simp only [after, exec, execFinv]
  rw [h]
  decide +kernel

theorem test_finv_zero :
    (after (.finv 1 0) (pair 0 0)).err = 0 ∧ (after (.finv 1 0) (pair 0 0)).trace = [.inv] := by
  decide +kernel

theorem test_fisz : (after (.fisz 7) State.reset).t = true ∧
    (after (.fisz 0) (pair (fPoly 240) 0)).t = false := by decide +kernel

theorem test_feq : (after (.feq 0 1) (pair 6 6)).t = true ∧
    (after (.feq 0 1) (pair 1 (fPoly 240 ^^^ 1))).t = false := by decide +kernel

theorem test_fdeg :
    (after (.fdeg 0) (pair 0x4000000000000000001 0)).deg = 74 ∧
    (after (.fdeg 0) (pair (BitVec.allOnes 240) 0)).deg = 239 := by decide +kernel

theorem test_fdeg_zero_and_one :
    (after (.fdeg 0) (pair 0 0)).t = true ∧ (after (.fdeg 0) (pair 1 0)).t = false ∧
    (after (.fdeg 0) (pair 1 0)).deg = 0 := by decide +kernel

/-! ### Point commands (95_test_vectors.md 3.1, 3.2) -/

theorem test_pdbl : pointDouble ⟨1, 1⟩ = some ⟨0, 1⟩ := by
  rw [pointDouble, if_neg (by decide), show fInv (⟨1, 1⟩ : Point).x = some 1 from fInv_one]
  decide +kernel

theorem test_pdbl_y_zero :
    (after (.pdbl 0) (pair 5 0)).preg 0 = inf ∧ (after (.pdbl 0) (pair 5 0)).trace = [.dbl] := by
  decide +kernel

theorem test_padd : pointAdd ⟨0, 1⟩ ⟨1, 1⟩ = some ⟨1, 0⟩ := by
  rw [pointAdd, if_neg (by decide), if_neg (by decide), if_neg (by decide), if_neg (by decide)]
  rw [show ((⟨0, 1⟩ : Point).x ^^^ (⟨1, 1⟩ : Point).x) = 1#240 by decide, fInv_one]
  decide +kernel

theorem test_padd_opposite :
    (after (.padd 0 1) (points ⟨1, 0⟩ ⟨1, 1⟩ 0)).preg 0 = inf ∧
    (after (.padd 0 1) (points ⟨1, 0⟩ ⟨1, 1⟩ 0)).preg 1 = ⟨1, 1⟩ := by decide +kernel

theorem test_pval :
    (after (.pval 0) (pair 1 0)).t = true ∧ (after (.pval 0) (pair 1 2)).t = false ∧
    (after (.pval 0) (pair 1 2)).trace = [.sqr, .mul, .sqr, .mul] := by decide +kernel

theorem test_pval_degree_overflow :
    (after (.pval 0) (pair (fPoly 240 ^^^ 1) 0)).t = false ∧
    (after (.pval 0) (pair (fPoly 240 ^^^ 1) 0)).trace = [] := by decide +kernel

theorem test_pisz : (after (.pisz 0) (pair 0 0)).t = true ∧
    (after (.pisz 0) (pair 0 1)).t = false := by decide +kernel

/-! ### Scalar multiplier and protocol (95_test_vectors.md 4.1, 5) -/

theorem test_smul_width_zero :
    (after (.smul 0 1 0) (points ⟨5, 7⟩ ⟨1, 1⟩ 3)).preg 0 = inf := by decide +kernel

theorem test_smul_leading_zeros :
    (after (.smul 0 1 3) (points inf ⟨1, 1⟩ 1)).preg 0 = ⟨1, 1⟩ ∧
    (after (.smul 0 1 3) (points inf ⟨1, 1⟩ 1)).trace = [.dbl, .add, .dbl, .add, .dbl, .add] := by
  decide +kernel

/-- E2c: a failing source leaves K and P0. -/
theorem test_kgen_failure :
    (after (.kgen 0) { points ⟨1, 1⟩ inf 5 with rng := [answer false 9] }).err = 4 ∧
    (after (.kgen 0) { points ⟨1, 1⟩ inf 5 with rng := [answer false 9] }).k = 5 ∧
    (after (.kgen 0) { points ⟨1, 1⟩ inf 5 with rng := [answer false 9] }).preg 0 = ⟨1, 1⟩ := by
  decide +kernel

theorem test_kgen_bytes : (after (.kgen 0) (withAnswer (answer true 1))).k = 1 ∧
    scalarOfBytes ((answer true 0).bytes.set 0 0x80) = (1 : Elem) <<< 239 := by decide +kernel

/-- E4: the remote key INF. -/
theorem test_ssec_infinity :
    (after (.ssec 2 1) (points ⟨1, 1⟩ inf 5)).err = 3 ∧
    (after (.ssec 2 1) (points ⟨1, 1⟩ inf 5)).trace = [] := by decide +kernel

/-- E5, E6 in small: off the curve, and degree overflow. -/
theorem test_ssec_rejected_events :
    (after (.ssec 2 1) (points ⟨1, 1⟩ ⟨1, 2⟩ 5)).trace = [.sqr, .mul, .sqr, .mul] ∧
    (after (.ssec 2 1) (points ⟨1, 1⟩ ⟨1, (1 : Elem) <<< 233⟩ 5)).trace = [] := by decide +kernel

/-- E12 on a small-order key: K = 0 gives INF without error. -/
theorem test_ssec_zero_scalar :
    (after (.ssec 2 1) (points ⟨1, 1⟩ ⟨1, 0⟩ 0)).preg 2 = inf ∧
    (after (.ssec 2 1) (points ⟨1, 1⟩ ⟨1, 0⟩ 0)).err = 0 := by decide +kernel

/-! ### Steps and host accesses (95_test_vectors.md 2.5, 2.6) -/

theorem test_step_runs_command : (afterWord 0x01201000 (pair 3 5)).freg 2 = 6 := by decide +kernel

theorem test_step_illegal : (afterWord 0x02101000 (pair 3 5)) = { pair 3 5 with err := 1 } := by
  decide +kernel

theorem test_windows :
    (pair 0x0123 1).readByte 0x000 = some 0x23 ∧ (pair 0x0123 1).readByte 0x11D = some 0x23 ∧
    (pair 0x0123 1).readByte 0x13B = some 0x01 ∧ (pair 0x0123 1).readByte 0x01E = some 0 ∧
    (State.reset.setK 0x0102).readByte 0x21D = some 0x02 ∧
    (State.reset.setK 0x0102).readByte 0x21C = some 0x01 := by decide +kernel

theorem test_window_write :
    (State.reset.setSlot 0xFF (fwinSlot 0 29)).readByte 0x100 = some 0xFF := by decide +kernel

theorem test_window_write_marks :
    (State.reset.setSlot 0xFF (fwinSlot 0 29)).wrF[0] = 1#30 <<< 29 ∧
    (State.reset.setSlot 0xFF (kwinSlot 0)).wrK = 1#30 <<< 29 := by decide +kernel

theorem test_refused :
    State.reset.memRead 0x000 4 = none ∧ State.reset.memRead 0x301 4 = none ∧
    State.reset.memRead 0x304 1 = none ∧ State.reset.memRead 0x220 1 = none ∧
    State.reset.memRead 0x30C 4 = none ∧ State.reset.memRead 0x300 4 = some [0, 0, 0, 0] := by
  decide +kernel

theorem test_status :
    ({ State.reset with t := true, err := 3 } : State).memRead 0x304 4 = some [1, 3, 0, 0] := by
  decide +kernel

/-! ### The obligations' hypotheses can be met -/

theorem witness_DecodeOfEncodeIsTheCommand : (Instr.smul 3 3 240).wf = true := by decide

theorem witness_LegalWordIsTheEncodingOfItsCommand : decode 0x203300F0 = .ok (.smul 3 3 240) := by
  decide

theorem witness_IllegalWordsAreThoseOfTheRules :
    (∀ i, decode 0x0F000000 ≠ .ok i) ∧ (∀ i, decode 0x1F000000 ≠ .ok i) ∧
    (∀ i, decode 0x2F000000 ≠ .ok i) ∧ (∀ i, decode 0x32000000 ≠ .ok i) ∧
    (∀ i, decode 0x10400000 ≠ .ok i) ∧ (∀ i, decode 0x05080000 ≠ .ok i) ∧
    (∀ i, decode 0x06008000 ≠ .ok i) ∧ (∀ i, decode 0x05100000 ≠ .ok i) ∧
    (∀ i, decode 0x30010000 ≠ .ok i) ∧ (∀ i, decode 0x03001000 ≠ .ok i) ∧
    (∀ i, decode 0x01000001 ≠ .ok i) ∧ (∀ i, decode 0x200000F1 ≠ .ok i) ∧
    (∀ i, decode 0x02000000 ≠ .ok i) ∧ decode 0x200000F0 = .ok (.smul 0 0 240) := by
  refine ⟨?_, ?_, ?_, ?_, ?_, ?_, ?_, ?_, ?_, ?_, ?_, ?_, ?_, by decide⟩ <;>
    (intro i h; cases h)

theorem witness_StepRunsTheCommandWrittenToCmd :
    (Instr.kgen 3).wf = true ∧
    ({ State.reset with host := [.write cmdAddr (wordBytes (encode (.kgen 3)))] } : State).host =
      .write cmdAddr (wordBytes (encode (.kgen 3))) :: [] := ⟨by decide, rfl⟩

theorem witness_IllegalWordSetsErrAndNothingElse :
    (∀ i, decode 0 ≠ .ok i) ∧
    ({ State.reset with host := [.write cmdAddr (wordBytes 0)] } : State).host =
      .write cmdAddr (wordBytes 0) :: [] :=
  ⟨fun i h => (by cases h), rfl⟩

theorem witness_ReduceIsTheRemainder : canonical ((1 : Elem) <<< 232) = true := by decide +kernel

theorem witness_InverseIsTheUniqueInverse :
    reduce (fPoly 240 ^^^ 1) ≠ 0 ∧ reduce (fPoly 240) = 0 := by decide +kernel

theorem witness_CanonicalOperandsGiveCanonicalResults :
    canonical ((1 : Elem) <<< 232) = true ∧ canonical (1 : Elem) = true ∧ (1 : Elem) ≠ 0 := by
  decide +kernel

theorem witness_FaddResult :
    canonical ((pair ((1 : Elem) <<< 232) 1).freg 0) = true ∧
    canonical ((pair ((1 : Elem) <<< 232) 1).freg 1) = true := by decide +kernel

theorem witness_FmulResult :
    (0 : FReg) ≠ 1 ∧ (pair 1 1).freg 1 = 1 ∧ (pair 0 1).freg 0 = 0 := by decide +kernel

theorem witness_FinvResult :
    reduce ((pair 1 0).freg 0) ≠ 0 ∧ reduce ((pair (fPoly 240) 0).freg 0) = 0 := by decide +kernel

theorem witness_FdegResult :
    (pair ((1 : Elem) <<< 239) 0).freg 0 ≠ 0 ∧ (pair 0 0).freg 0 = 0 ∧
    canonical ((pair ((1 : Elem) <<< 232) 0).freg 0) = true := by decide +kernel

theorem witness_AddingTwiceCancels : (7 : FReg) ≠ 0 := by decide

theorem witness_PdblResult :
    ((pair 5 0).preg 0).y = 0 ∧
    ((pair (fPoly 240) 1).preg 0).y ≠ 0 ∧ reduce ((pair (fPoly 240) 1).preg 0).x = 0 ∧
    ((pair 1 1).preg 0).y ≠ 0 ∧ reduce ((pair 1 1).preg 0).x ≠ 0 := by decide +kernel

theorem witness_PaddResult :
    (points ⟨1, 1⟩ inf 0).preg 1 = inf ∧
    ((points inf ⟨1, 1⟩ 0).preg 1 ≠ inf ∧ (points inf ⟨1, 1⟩ 0).preg 0 = inf) ∧
    ((points ⟨1, 1⟩ ⟨1, 1⟩ 0).preg 0 = (points ⟨1, 1⟩ ⟨1, 1⟩ 0).preg 1) ∧
    pointDouble ⟨0, 1⟩ = none ∧ pointDouble ⟨1, 0⟩ = some inf ∧
    ((1 : Elem) ≠ fPoly 240 ^^^ 1 ∧ reduce ((1 : Elem) ^^^ (fPoly 240 ^^^ 1)) = 0) ∧
    reduce ((0 : Elem) ^^^ 1) ≠ 0 := by decide +kernel

theorem witness_PvalAndPiszResult :
    (pair 0 0).preg 0 = inf ∧ (pair 1 2).preg 0 ≠ inf ∧
    ((pair 1 2).preg 0).x >>> 233 = 0 ∧ ((pair 1 2).preg 0).y >>> 233 = 0 ∧
    ((pair 1 ((1 : Elem) <<< 233)).preg 0).y >>> 233 ≠ 0 := by decide +kernel

theorem witness_GroupIdentityAndDoublingConsistency :
    (points ⟨1, 1⟩ inf 0).preg 1 = inf ∧ (points inf ⟨1, 1⟩ 0).preg 0 = inf ∧
    (points ⟨1, 1⟩ ⟨1, 1⟩ 0).preg 1 = (points ⟨1, 1⟩ ⟨1, 1⟩ 0).preg 0 ∧
    reduce ((points ⟨1, 1⟩ ⟨1, 1⟩ 0).preg 0).x ≠ 0 ∧
    ((points ⟨0, 0⟩ ⟨0, 0⟩ 0).preg 0).y = 0 := by decide +kernel

theorem witness_PointFunctionsStayOnTheCurve :
    pointValid ⟨0, 1⟩ = true ∧ pointValid ⟨1, 1⟩ = true ∧ pointValid inf = true := by
  decide +kernel

theorem witness_SmallOrderPoints :
    pointValid inf = true ∧ pointValid ⟨0, 1⟩ = true ∧ pointValid ⟨1, 0⟩ = true := by
  decide +kernel

theorem witness_SmulResult :
    (240#12).toNat ≤ 240 ∧ 240 < (241#12).toNat ∧
    scalarMul ⟨1, 0⟩ 1 240 = some ⟨1, 0⟩ ∧ scalarMul ⟨0, 1⟩ 2 2 = none ∧
    (points inf ⟨0, 1⟩ 2).preg 1 = ⟨0, 1⟩ ∧ (points inf ⟨0, 1⟩ 2).k = 2 ∧
    State.reset.preg 1 = inf := by decide +kernel

/-- At the widest bw, (1, 0) with an even scalar; (0, 1) with K = 2 loses its value in the last step. -/
theorem witness_ScalarMulEventsAreThoseOfItsSteps :
    ((239#12).toNat < 240 ∧ (points inf ⟨1, 0⟩ 2).preg 1 = ⟨1, 0⟩ ∧
      scalarMul ⟨1, 0⟩ ((points inf ⟨1, 0⟩ 2).k >>> 1) 239 = some ⟨1, 0⟩ ∧
      pointDouble ⟨1, 0⟩ = some inf) ∧
    (scalarMul ⟨0, 1⟩ ((points inf ⟨0, 1⟩ 2).k >>> 1) 239 = some ⟨0, 1⟩ ∧
      pointDouble ⟨0, 1⟩ = none) ∧
    ((withAnswer (answer true 0)).rngAnswer.ok = true ∧
      (State.reset.setP 1 Config.generator.point).preg 1 = Config.generator.point ∧
      (State.reset.setP 1 Config.generator.point).trace = (withAnswer (answer true 0)).trace ∧
      (State.reset.setP 1 Config.generator.point).draws = (withAnswer (answer true 0)).draws ∧
      (State.reset.setP 1 Config.generator.point).k =
        (after (.kgen 0) (withAnswer (answer true 0))).k) ∧
    (⟨1, 0⟩ : Point) ≠ inf ∧ pointValid ⟨1, 0⟩ = true ∧
      scalarMul ⟨1, 0⟩ (points inf ⟨1, 0⟩ 2).k 233 = some inf ∧ pointDouble inf = some inf :=
  ⟨by decide +kernel, by decide +kernel,
    ⟨by decide +kernel, State.preg_setP_self _ _ _, rfl, rfl, by decide +kernel⟩, by decide +kernel⟩

theorem witness_ScalarMulIgnoresHighBits :
    (3 : Elem).toNat % 2 ^ 1 = (1 : Elem).toNat % 2 ^ 1 := by decide +kernel

theorem witness_ConstantShapeOfScalarMultiplication :
    (240#12).toNat ≤ 240 ∧ (withAnswer (answer true 1)).rngAnswer.ok = true ∧
    (points inf ⟨1, 0⟩ 1).preg 1 ≠ inf ∧ pointValid ((points inf ⟨1, 0⟩ 1).preg 1) = true := by
  decide +kernel

theorem witness_ZeroScalarGivesInfinityWithoutFieldEvent :
    (233#12).toNat ≤ 240 ∧
    ∀ i < (233#12).toNat, (points inf ⟨1, 1⟩ ((1 : Elem) <<< 233)).k.getLsbD i = false := by
  decide +kernel

theorem witness_ScalarMultiplesOfSmallOrderPoints :
    (1 : Elem).toNat % 2 ^ 0 = 0 ∧ (1 : Elem).toNat % 2 ^ 1 = 1 ∧ 2 ≤ (2 : Elem).toNat % 2 ^ 2 := by
  decide +kernel

theorem witness_ScalarMulOfAValidPointIsValid :
    pointValid ⟨1, 0⟩ = true ∧ scalarMul ⟨1, 0⟩ 1 233 = some ⟨1, 0⟩ ∧
    ((scalarMul ⟨1, 0⟩ 1 233).bind pointDouble).bind pointDouble = some inf := by decide +kernel

/-- The last two clauses: G is opaque, so the one shows an admissible generator that meets it. -/
theorem witness_KgenResult :
    (∃ g : Generator, scalarMul g.point 2 233 = none) ∧
    (withAnswer (answer false 0)).rngAnswer.ok = false ∧
    (withAnswer (answer true 0)).rngAnswer.ok = true ∧
    (after (.kgen 0) (withAnswer (answer true 0))).k = 0 ∧
    scalarMul Config.generator.point 0 233 = some inf :=
  ⟨⟨⟨⟨0, 1⟩, by decide +kernel, by decide +kernel⟩, by decide +kernel⟩, by decide +kernel⟩

theorem witness_KgenOfScalarOnePublishesTheGenerator :
    (withAnswer (answer true 1)).rng = answer true 1 :: [] ∧ (answer true 1).ok = true ∧
    ∀ j : Fin 30, (answer true 1).bytes[j] = if j.val = 29 then 1 else 0 := by decide +kernel

theorem witness_GeneratorSelfConsistency :
    (withAnswer (answer true 0)).rngAnswer.ok = true ∧
    exec (.kgen 0) (withAnswer (answer true 0)) =
      .next (after (.kgen 0) (withAnswer (answer true 0))) ∧
    (after (.kgen 0) (withAnswer (answer true 0))).draws =
      (withAnswer (answer true 0)).draws ∧
    (∀ j : Fin 30, ((State.reset.setK 0).setP 1 Config.generator.point).readByte (0x200 + j.val) =
      some (withAnswer (answer true 0)).rngAnswer.bytes[j]) ∧
    ((State.reset.setK 0).setP 1 Config.generator.point).preg 1 = Config.generator.point :=
  ⟨by decide +kernel, rfl, by decide +kernel, by decide +kernel, State.preg_setP_self _ _ _⟩

theorem witness_SsecResult :
    (points inf ⟨1, 0⟩ 1).preg 1 ≠ inf ∧ pointValid ((points inf ⟨1, 0⟩ 1).preg 1) = true ∧
    ((scalarMul ⟨1, 0⟩ 1 233).bind pointDouble).bind pointDouble = some inf ∧
    (points inf ⟨0, 1⟩ 1).preg 1 = ⟨0, 1⟩ ∧ pointValid ⟨0, 1⟩ = true ∧
    ((scalarMul ⟨0, 1⟩ 1 233).bind pointDouble).bind pointDouble = none := by decide +kernel

theorem witness_SsecRejectsInvalidKeys :
    State.reset.preg 1 = inf ∧ pointValid ((points inf ⟨1, 2⟩ 0).preg 1) = false ∧
    (points inf ⟨1, 2⟩ 0).preg 1 ≠ inf ∧
    (((points inf ⟨1, 2⟩ 0).preg 1).x >>> 233 = 0 ∧ ((points inf ⟨1, 2⟩ 0).preg 1).y >>> 233 = 0) ∧
    pointValid ((points inf ⟨1, (1 : Elem) <<< 233⟩ 0).preg 1) = false ∧
    ((points inf ⟨1, (1 : Elem) <<< 233⟩ 0).preg 1).y >>> 233 ≠ 0 := by decide +kernel

theorem witness_SsecOfTheOrderFourKeyIsInfinity : (points inf ⟨1, 0⟩ 7).preg 1 = ⟨1, 0⟩ := by
  decide +kernel

theorem witness_WindowWriteReplacesOneByte :
    ({ State.reset with host := [.write 0x0FD [0xFF]] } : State).host = .write 0x0FD [0xFF] :: [] ∧
    slotOf 0x0FD = some (.fByte 7 29) ∧ slotOf 0x1C0 = some (.fByte 6 29) ∧
    slotOf 0x1FB = some (.fByte 7 0) ∧ slotOf 0x1DE = some (.fByte 7 29) ∧
    slotOf 0x21D = some (.kByte 0) ∧ slotOf 0x21F = some .pad := by decide +kernel

theorem witness_PointWireFormRoundTrips :
    ∃ s : State, s.host = (List.finRange 60).map
      (fun j => HostAction.write (0x100 + 0x40 * (3 : PReg).val + j.val)
        [(Vector.replicate 60 (0xA5 : Byte))[j]]) ++ [] := ⟨{ State.reset with host := _ }, rfl⟩

theorem witness_ReadsChangeNothing :
    ({ State.reset with host := [.read 0x304 4] } : State).host = .read 0x304 4 :: [] ∧
    ({ State.reset with host := [.read 0x304 4] } : State).memRead 0x304 4 = some [0, 0, 0, 0] := by
  decide +kernel

theorem witness_ResetEventLeavesTheResetValues :
    ({ pair 1 2 with host := [.reset] } : State).host = .reset :: [] := rfl

theorem witness_IdleUnitKeepsItsState : State.reset.host = [] := rfl

theorem witness_EveryStepKeepsTheInvariant :
    State.reset.err = 0 ∧ State.reset.deg.toNat ≤ 239 ∧ step State.reset = .next State.reset :=
  ⟨rfl, by decide, rfl⟩

theorem witness_FlagAndSpecialRegisterWriters :
    (after (.fisz 0) State.reset).t ≠ State.reset.t ∧
    (after (.fdeg 0) (pair 2 0)).deg ≠ (pair 2 0).deg ∧
    (after (.kgen 0) (withAnswer (answer true 1))).k ≠ (withAnswer (answer true 1)).k ∧
    (after (.kgen 0) (withAnswer (answer true 1))).rngRequests ≠ [] ∧
    (after (.ssec 0 1) State.reset).err ≠ 0 := by decide +kernel

theorem witness_FailingCommandLeavesTheRegisters :
    (after (.fmul 0 1 0) State.reset).err = 1 ∧ (after (.ssec 0 1) State.reset).err = 3 ∧
    (after (.kgen 0) (withAnswer (answer false 1))).err = 4 := by decide +kernel

theorem witness_CommandsKeepCanonicalForm :
    (∀ n, canonical (State.reset.freg n) = true) ∧
    exec (.fadd 0 1 2) State.reset = .next (after (.fadd 0 1 2) State.reset) ∧
    (after (.fadd 0 1 2) State.reset).draws = State.reset.draws :=
  ⟨by decide +kernel, rfl, rfl⟩

/-- The two states differ in K, never written; the next action reads only a written register. -/
theorem witness_UnwrittenBytesNeverMatter :
    State.agree { pair 3 5 with host := [.write cmdAddr (wordBytes (encode (.fadd 2 0 1)))] }
      { pair 3 5 with host := [.write cmdAddr (wordBytes (encode (.fadd 2 0 1)))], k := 7 } ∧
    State.safeStep { pair 3 5 with
      host := [.write cmdAddr (wordBytes (encode (.fadd 2 0 1)))] } = true :=
  ⟨⟨fun _ _ _ => rfl, by decide +kernel, rfl⟩, by decide +kernel⟩

end Sys2Proof.Machine.Tests
end

section
/-! Proofs about the state and its steps: the decoder inverts the encoder, and a step runs the command
written to CMD (10_state.md section 5, 30_encoding.md R44 to R53). -/

set_option autoImplicit false

namespace Sys2Proof

/-! ### The checks of one field accept what the encoder writes (R46, R47, R50) -/

@[simp] theorem asFReg_ofFReg (n : FReg) : asFReg (ofFReg n) = .ok n := by
  revert n; decide

@[simp] theorem asPReg_ofPReg (k : PReg) : asPReg (ofPReg k) = .ok k := by
  revert k; decide

@[simp] theorem unused_zero : unused 0#4 = .ok () := rfl

@[simp] theorem noImm_zero : noImm 0#12 = .ok () := rfl

theorem checkWf_of_wf {i : Instr} (h : i.wf = true) : checkWf i = .ok i := by
  simp [checkWf, h]

/-- By operand shape: the decoder reads each field of the assembled word back and its checks pass. -/
theorem decode_encode {i : Instr} (h : i.wf = true) : decode (encode i) = .ok i := by
  cases i with
  | fadd | fmul => simp [encode, decode, decodeFFF, checkWf_of_wf h, bind, Except.bind]
  | fsqr | finv => simp [encode, decode, decodeFF, checkWf_of_wf h, bind, Except.bind]
  | fisz | fdeg => simp [encode, decode, decodeS, checkWf_of_wf h, bind, Except.bind]
  | feq => simp [encode, decode, decodeSS, checkWf_of_wf h, bind, Except.bind]
  | pdbl | kgen => simp [encode, decode, decodePd, checkWf_of_wf h, bind, Except.bind]
  | padd | ssec => simp [encode, decode, decodePP, checkWf_of_wf h, bind, Except.bind]
  | pval | pisz => simp [encode, decode, decodePa, checkWf_of_wf h, bind, Except.bind]
  | smul => simp [encode, decode, decodePPI, checkWf_of_wf h, bind, Except.bind]

namespace Machine

/-- Settles O5: the write to CMD runs the decoder, which reads `i` back from its word. -/
theorem stepRunsTheCommandWrittenToCmd : Obligations.StepRunsTheCommandWrittenToCmd := by
  intro i s rest hwf hhost
  rw [step_action hhost, hostAction, busWrite_cmd, runCommand_wordBytes, decode_encode hwf]

end Machine

end Sys2Proof
end

section
/-! Proofs about the state and its steps: the values at reset (10_state.md R26, R27), what the control
words show (R18 to R20), and which commands write T, DEG, K and the random port (R16 to R19,
20_memory.md R42). -/

set_option autoImplicit false

namespace Sys2Proof.Machine

/-- Settles O46, by evaluating the reset state. -/
theorem resetStateValues : Obligations.ResetStateValues :=
  ⟨rfl, rfl, rfl, rfl, by decide, by decide⟩

/-- Settles O49: ERR holds OK and DEG 0. -/
theorem resetMeetsTheInvariant : Obligations.ResetMeetsTheInvariant :=
  ⟨.inl rfl, by decide⟩

/-! ### Control words -/

/-- STATUS bit by bit; `err` has no bit above its four. -/
theorem State.getLsbD_status (s : State) (i : Nat) :
    s.status.getLsbD i =
      if i = 0 then s.t else if 8 ≤ i then s.err.getLsbD (i - 8) else false := by
  simp only [State.status, BitVec.getLsbD_append]
  grind

/-- DEG bit by bit; `deg` has no bit above its eight. -/
theorem State.getLsbD_degWord (s : State) (i : Nat) : s.degWord.getLsbD i = s.deg.getLsbD i := by
  rw [State.degWord, BitVec.getLsbD_append]
  split
  · rfl
  · rw [BitVec.getLsbD_zero, BitVec.getLsbD_of_ge _ _ (by omega)]

theorem State.memRead_control {s : State} {addr : Nat} {w : Word}
    (h : s.readWord addr = some w) : s.memRead addr 4 = some (wordBytes w) := by
  simp [State.memRead, h]

/-- Settles O44, from the bits of the two words. -/
theorem controlWordReads : Obligations.ControlWordReads := by
  intro s
  refine ⟨⟨s.status, State.memRead_control rfl, ?_, ?_, ?_, ?_⟩,
    ⟨s.degWord, State.memRead_control rfl, ?_, ?_⟩, State.memRead_control (w := 0) rfl⟩
  · rw [s.getLsbD_status, if_pos rfl]
  · intro i h1 h8
    rw [s.getLsbD_status, if_neg (by omega), if_neg (by omega)]
  · intro i _
    simp [s.getLsbD_status]
  · intro i h12
    rw [s.getLsbD_status, if_neg (by omega), if_pos (by omega), BitVec.getLsbD_of_ge _ _ (by omega)]
  · intro i _
    exact s.getLsbD_degWord i
  · intro i h8
    rw [s.getLsbD_degWord, BitVec.getLsbD_of_ge _ _ h8]

/-! ### Writers of T, DEG, K and the random port -/

@[simp] theorem State.generateKeyPair_t (s : State) (rd : PReg) (g : Point) (a : RngAnswer) :
    (s.generateKeyPair rd g a).t = s.t := by
  unfold State.generateKeyPair
  split <;> simp

@[simp] theorem State.generateKeyPair_deg (s : State) (rd : PReg) (g : Point) (a : RngAnswer) :
    (s.generateKeyPair rd g a).deg = s.deg := by
  unfold State.generateKeyPair
  split <;> simp

/-- Settles O52: the state each command leaves, by what the command may write. -/
theorem flagAndSpecialRegisterWriters : Obligations.FlagAndSpecialRegisterWriters := by
  intro i s t h
  cases i with
  | fisz | feq | fdeg | pval | pisz =>
    -- the predicate commands end with OK, and of them FDEG alone writes DEG
    cases h
    simp
  | fadd | fsqr | finv | pdbl | padd =>
    -- these write field registers only
    cases h
    simp
  | fmul | smul | ssec =>
    -- as do these, or they fail and write ERR only
    cases h
    split <;> simp
  | kgen =>
    cases h
    simp

end Sys2Proof.Machine
end

section
/-! Proofs about the state and its steps: canonical form (10_state.md R13, 40_field.md R69). The field
functions give remainders, the point formulas are built from them by exclusive-or, and a run of the
point engine that draws nothing ends in a canonical pair. -/

set_option autoImplicit false

namespace Sys2Proof

/-! ### Field functions -/

theorem canonical_xor {a b : Elem} (ha : canonical a = true) (hb : canonical b = true) :
    canonical (a ^^^ b) = true := by
  rw [canonical_iff] at *
  intro i hi
  rw [BitVec.getLsbD_xor, ha i hi, hb i hi, Bool.xor_false]

theorem canonical_fMul (a b : Elem) : canonical (fMul a b) = true := canonical_reduce _

theorem canonical_fSqr (a : Elem) : canonical (fSqr a) = true := canonical_reduce _

theorem canonical_of_fInv {a v : Elem} (h : fInv a = some v) : canonical v = true := by
  unfold fInv at h
  split at h
  · cases h
  · cases h
    exact canonical_fSqr _

/-! ### Point functions -/

/-- Both coordinates are canonical (R13). -/
def Point.isCanonical (p : Point) : Prop := canonical p.x = true ∧ canonical p.y = true

theorem isCanonical_inf : inf.isCanonical := by
  constructor <;> decide

theorem isCanonical_of_pointValid {p : Point} (h : pointValid p = true) : p.isCanonical := by
  simp only [pointValid, pointIsZero, Bool.or_eq_true, Bool.and_eq_true, beq_iff_eq] at h
  rcases h with ⟨hx, hy⟩ | ⟨hc, -⟩
  · rw [Point.isCanonical, hx, hy]
    exact isCanonical_inf
  · exact hc

theorem isCanonical_doubleFormula {p : Point} (hp : p.isCanonical) (xi : Elem) :
    (doubleFormula p xi).isCanonical :=
  have ⟨hpx, _⟩ := hp
  have hx : canonical (doubleFormula p xi).x = true :=
    canonical_xor (canonical_fSqr _) (canonical_xor hpx (canonical_fMul _ _))
  ⟨hx, canonical_xor (canonical_xor (canonical_fSqr _) (canonical_fMul _ _)) hx⟩

theorem isCanonical_of_pointDouble {p r : Point} (hp : p.isCanonical)
    (h : pointDouble p = some r) : r.isCanonical := by
  unfold pointDouble at h
  split at h
  · cases h
    exact isCanonical_inf
  · obtain ⟨xi, -, rfl⟩ := Option.map_eq_some_iff.mp h
    exact isCanonical_doubleFormula hp xi

theorem isCanonical_addFormula {p q : Point} (hp : p.isCanonical) (hq : q.isCanonical)
    (di : Elem) : (addFormula p q di).isCanonical :=
  have ⟨hpx, hpy⟩ := hp
  have ⟨hqx, _⟩ := hq
  have hx : canonical (addFormula p q di).x = true :=
    canonical_xor (canonical_xor (canonical_xor (canonical_fSqr _) (canonical_fMul _ _)) hpx) hqx
  ⟨hx, canonical_xor (canonical_xor (canonical_fMul _ _) hpy) hx⟩

/-- By the five cases of R75. -/
theorem isCanonical_of_pointAdd {p q r : Point} (hp : p.isCanonical) (hq : q.isCanonical)
    (h : pointAdd p q = some r) : r.isCanonical := by
  unfold pointAdd at h
  split at h
  · cases h
    exact hp
  split at h
  · cases h
    exact hq
  split at h
  · exact isCanonical_of_pointDouble hp h
  split at h
  · cases h
    exact isCanonical_inf
  · obtain ⟨di, -, rfl⟩ := Option.map_eq_some_iff.mp h
    exact isCanonical_addFormula hp hq di

namespace Machine

/-! ### Runs of the point engine -/

/-- A run that began at draw counter `d`: its counter never went back, and a specified accumulator
is canonical. -/
def PointRun.CanonicalFrom (d : Nat) (r : PointRun) : Prop :=
  d ≤ r.draws ∧ ∀ p, r.acc = some p → p.isCanonical

theorem PointRun.draws_le_drawn (r : PointRun) : r.draws ≤ r.drawn := by
  unfold PointRun.drawn
  split <;> omega

theorem State.canonicalFrom_startRun (s : State) {p : Point} (hp : p.isCanonical) :
    (s.startRun p).CanonicalFrom s.draws :=
  ⟨Nat.le_refl _, fun q hq => by cases hq; exact hp⟩

section
variable {d : Nat} {r : PointRun} (hr : r.CanonicalFrom d)
include hr

theorem PointRun.CanonicalFrom.double : r.double.CanonicalFrom d := by
  obtain ⟨hd, hacc⟩ := hr
  refine ⟨hd.trans r.draws_le_drawn, fun p hp => ?_⟩
  obtain ⟨a, ha, hap⟩ := Option.bind_eq_some_iff.mp hp
  exact isCanonical_of_pointDouble (hacc a ha) hap

theorem PointRun.CanonicalFrom.add {q : Point} (hq : q.isCanonical) :
    (r.add q).CanonicalFrom d := by
  obtain ⟨hd, hacc⟩ := hr
  refine ⟨hd.trans r.draws_le_drawn, fun p hp => ?_⟩
  obtain ⟨a, ha, hap⟩ := Option.bind_eq_some_iff.mp hp
  exact isCanonical_of_pointAdd (hacc a ha) hq hap

theorem PointRun.CanonicalFrom.scalarLoop {p : Point} (hp : p.isCanonical) (k : Elem) (n : Nat) :
    (scalarLoop p k n r).CanonicalFrom d := by
  induction n generalizing r with
  | zero => exact hr
  | succ i ih =>
    refine ih (hr.double.add ?_)
    split
    · exact hp
    · exact isCanonical_inf

/-- A run that ends without a draw has a specified, so canonical, value. -/
theorem PointRun.CanonicalFrom.value (hd : r.drawn = d) : r.value.isCanonical := by
  obtain ⟨hle, hacc⟩ := hr
  cases ha : r.acc with
  | none =>
    obtain ⟨-, hdrawn⟩ := PointRun.value_of_none ha
    omega
  | some p =>
    obtain ⟨hvalue, -⟩ := PointRun.value_of_some ha
    rw [hvalue]
    exact hacc p ha

end

theorem State.canonicalFrom_scalarRun (s : State) {p : Point} (hp : p.isCanonical) (k : Elem)
    (bw : Nat) : (s.scalarRun p k bw).CanonicalFrom s.draws :=
  (s.canonicalFrom_startRun isCanonical_inf).scalarLoop hp k bw

/-! ### Registers -/

section
variable {s t : State} (hs : s.allCanonical)
include hs

theorem State.allCanonical.of_f_eq (hf : s.f = t.f) : t.allCanonical :=
  fun n => State.freg_congr hf n ▸ hs n

theorem State.allCanonical.preg (k : PReg) : (s.preg k).isCanonical := ⟨hs (xReg k), hs (yReg k)⟩

theorem State.allCanonical.setF (n : FReg) {v : Elem} (hv : canonical v = true) :
    (s.setF n v).allCanonical := by
  intro m
  rw [State.freg_setF]
  split
  · exact hv
  · exact hs m

/-- A command that ends a run without a draw leaves canonical registers. -/
theorem State.allCanonical.endRun_ok (k : PReg) {d : Nat} {r : PointRun} (hr : r.CanonicalFrom d)
    (hd : (s.endRun k r).ok.draws = d) : (s.endRun k r).ok.allCanonical :=
  have ⟨hx, hy⟩ := hr.value hd
  ((hs.setF (xReg k) hx).setF (yReg k) hy).of_f_eq rfl

end

/-- Settles O54: a command leaves the field registers, writes one canonical value, or ends a run. -/
theorem commandsKeepCanonicalForm : Obligations.CommandsKeepCanonicalForm := by
  intro i s t hs h hd
  cases i with
  | fisz | feq | fdeg | pval | pisz =>
    cases h
    exact hs.of_f_eq rfl
  | fadd rd ra rb =>
    cases h
    exact (hs.setF rd (canonical_xor (hs ra) (hs rb))).of_f_eq rfl
  | fsqr rd ra =>
    cases h
    exact (hs.setF rd (canonical_fSqr _)).of_f_eq rfl
  | fmul rd ra rb =>
    cases h
    split
    · exact hs.of_f_eq rfl
    · exact (hs.setF rd (canonical_fMul _ _)).of_f_eq rfl
  | finv rd ra =>
    cases h
    cases hv : fInv (s.freg ra) with
    | none => simp [hv] at hd
    | some v => exact (hs.setF rd (canonical_of_fInv hv)).of_f_eq rfl
  | pdbl rd =>
    cases h
    exact hs.endRun_ok rd (s.canonicalFrom_startRun (hs.preg rd)).double hd
  | padd rd ra =>
    cases h
    exact hs.endRun_ok rd ((s.canonicalFrom_startRun (hs.preg rd)).add (hs.preg ra)) hd
  | smul rd ra bw =>
    cases h
    by_cases hbw : Config.maxBitWidth < immWidth bw
    · rw [if_pos hbw]
      exact hs.of_f_eq rfl
    · rw [if_neg hbw] at hd ⊢
      exact hs.endRun_ok rd (s.canonicalFrom_scalarRun (hs.preg ra) s.k _) hd
  | kgen rd =>
    have hG := isCanonical_of_pointValid Config.generator.valid
    cases h
    unfold State.generateKeyPair at hd ⊢
    by_cases hok : s.rngAnswer.ok = true
    · rw [if_pos hok] at hd ⊢
      exact State.allCanonical.endRun_ok (hs.of_f_eq rfl) rd
        (State.canonicalFrom_scalarRun _ hG _ _) hd
    · rw [if_neg hok]
      exact hs.of_f_eq rfl
  | ssec rd ra =>
    cases h
    by_cases hbad : (pointIsZero (s.preg ra) || !pointValid (s.preg ra)) = true
    · rw [if_pos hbad]
      exact hs.of_f_eq rfl
    · rw [if_neg hbad] at hd ⊢
      exact State.allCanonical.endRun_ok (hs.of_f_eq rfl) rd
        (s.canonicalFrom_scalarRun (hs.preg ra) s.k _).double.double hd

end Machine

end Sys2Proof
end

section
/-! Proofs about the state and its steps: bytes never written since reset cannot matter (10_state.md
R27, 70_reset_and_hazards.md R124). Two states that agree show the same operands where the table of
R124 holds, every shared operation keeps agreement, and so does every command and host action. -/

set_option autoImplicit false

namespace Sys2Proof

/-- A register is its thirty bytes (R31). -/
theorem eq_of_elemByte_eq {a b : Elem}
    (h : ∀ j : Fin 30, Machine.elemByte a j = Machine.elemByte b j) : a = b := by
  apply BitVec.eq_of_getLsbD_eq
  intro i hi
  have hj := congrArg (·.getLsbD (i % 8)) (h ⟨i / 8, by omega⟩)
  simpa only [Machine.getLsbD_elemByte, Nat.mod_lt, Nat.div_add_mod, decide_true, Bool.true_and,
    Nat.ofNat_pos] using hj

namespace Machine

section
variable {s t : State}

/-- Agreement, slot by slot of the register space. -/
theorem State.agree_iff_slots : s.agree t ↔
    (∀ r, s.slotWritten r = true → s.slotByte r = t.slotByte r) ∧
      t = { s with f := t.f, k := t.k } := by
  constructor
  · rintro ⟨hf, hk, ht⟩
    refine ⟨fun r hr => ?_, ht⟩
    cases r with
    | fByte n j => exact hf n j hr
    | kByte j => exact hk j hr
    | pad => rfl
  · rintro ⟨hb, ht⟩
    exact ⟨fun n j => hb (.fByte n j), fun j => hb (.kByte j), ht⟩

variable (h : s.agree t)
include h

/-! ### What agreeing states have in common -/

theorem State.agree.eq_with : t = { s with f := t.f, k := t.k } := h.2.2

theorem State.agree.host : t.host = s.host := by rw [h.eq_with]

theorem State.agree.draws : t.draws = s.draws := by rw [h.eq_with]

theorem State.agree.rngAnswer : t.rngAnswer = s.rngAnswer := by rw [h.eq_with]; rfl

theorem State.agree.readWord (addr : Nat) : t.readWord addr = s.readWord addr := by
  rw [h.eq_with]; rfl

theorem State.agree.freg {n : FReg} (hn : s.fullF n = true) : t.freg n = s.freg n := by
  obtain ⟨hf, -, -⟩ := h
  refine eq_of_elemByte_eq fun j => (hf n j ?_).symm
  rw [beq_iff_eq.mp hn, BitVec.getLsbD_allOnes, decide_eq_true j.isLt]

theorem State.agree.preg {k : PReg} (hk : s.fullP k = true) : t.preg k = s.preg k := by
  obtain ⟨hx, hy⟩ := Bool.and_eq_true_iff.mp hk
  rw [State.preg, h.freg hx, h.freg hy, State.preg]

theorem State.agree.k (hk : s.fullK = true) : t.k = s.k := by
  obtain ⟨-, hb, -⟩ := h
  refine eq_of_elemByte_eq fun j => (hb j ?_).symm
  rw [beq_iff_eq.mp hk, BitVec.getLsbD_allOnes, decide_eq_true j.isLt]

theorem State.agree.startRun (p : Point) : t.startRun p = s.startRun p := by
  rw [State.startRun, h.draws, State.startRun]

theorem State.agree.scalarRun (p : Point) (k : Elem) (bw : Nat) :
    t.scalarRun p k bw = s.scalarRun p k bw := by
  rw [State.scalarRun, h.startRun, State.scalarRun]

/-! ### Updates that write no register keep agreement -/

theorem State.agree.withHost (as : List HostAction) :
    ({ s with host := as } : State).agree { t with host := as } :=
  have ⟨hf, hk, ht⟩ := h
  ⟨hf, hk, congrArg (fun u => { u with host := as }) ht⟩

theorem State.agree.withReadData (bs : List Byte) :
    ({ s with readData := bs } : State).agree { t with readData := bs } :=
  have ⟨hf, hk, ht⟩ := h
  ⟨hf, hk, congrArg (fun u => { u with readData := bs }) ht⟩

theorem State.agree.withDraws (d : Nat) :
    ({ s with draws := d } : State).agree { t with draws := d } :=
  have ⟨hf, hk, ht⟩ := h
  ⟨hf, hk, congrArg (fun u => { u with draws := d }) ht⟩

theorem State.agree.raise (e : ErrorKind) : (s.raise e).agree (t.raise e) :=
  have ⟨hf, hk, ht⟩ := h
  ⟨hf, hk, congrArg (·.raise e) ht⟩

theorem State.agree.ok : s.ok.agree t.ok := h.raise .ok

theorem State.agree.illegalCommand : s.illegalCommand.agree t.illegalCommand :=
  h.raise .invalidArgument

theorem State.agree.setT (b : Bool) : (s.setT b).agree (t.setT b) :=
  have ⟨hf, hk, ht⟩ := h
  ⟨hf, hk, congrArg (·.setT b) ht⟩

theorem State.agree.setDeg (d : Nat) : (s.setDeg d).agree (t.setDeg d) :=
  have ⟨hf, hk, ht⟩ := h
  ⟨hf, hk, congrArg (·.setDeg d) ht⟩

theorem State.agree.emit (es : List Event) : (s.emit es).agree (t.emit es) :=
  have ⟨hf, hk, ht⟩ := h
  ⟨hf, hk, congrArg (·.emit es) ht⟩

theorem State.agree.rngFill (len : Nat) : (s.rngFill len).agree (t.rngFill len) :=
  have ⟨hf, hk, ht⟩ := h
  ⟨hf, hk, congrArg (·.rngFill len) ht⟩

/-! ### Writing the same value to a register of both keeps agreement -/

theorem State.agree.setF (n : FReg) (v : Elem) : (s.setF n v).agree (t.setF n v) := by
  obtain ⟨hf, hk, ht⟩ := h
  refine ⟨fun m j hj => ?_, hk, by rw [ht]; rfl⟩
  rw [State.freg_setF, State.freg_setF]
  split
  · rfl
  · rename_i hne
    rw [State.setF_wrF, Fin.getElem_fin, Vector.getElem_set_ne _ _ (Fin.val_ne_of_ne hne)] at hj
    exact hf m j hj

theorem State.agree.setK (v : Elem) : (s.setK v).agree (t.setK v) := by
  obtain ⟨hf, -, ht⟩ := h
  exact ⟨hf, fun _ _ => rfl, by rw [ht]; rfl⟩

theorem State.agree.setSlot (b : Byte) (w : Slot) : (s.setSlot b w).agree (t.setSlot b w) := by
  obtain ⟨hb, ht⟩ := State.agree_iff_slots.mp h
  refine State.agree_iff_slots.mpr ⟨fun r hr => ?_, by rw [ht]; cases w <;> rfl⟩
  rw [State.slotWritten_setSlot] at hr
  rw [State.slotByte_setSlot, State.slotByte_setSlot]
  by_cases hw : r = w
  · subst hw
    cases r <;> simp [State.slotByte]
  · rw [if_neg hw] at hr
    rw [hb r hr]

theorem State.agree.setFOpen (n : FReg) (v : Option Elem) :
    (s.setFOpen n v).agree (t.setFOpen n v) := by
  cases v with
  | some v => exact h.setF n v
  | none =>
    rw [State.setFOpen_none, State.setFOpen_none, h.draws]
    exact (h.setF n _).withDraws _

theorem State.agree.endRun (k : PReg) (r : PointRun) : (s.endRun k r).agree (t.endRun k r) :=
  (((h.emit r.events).setF (xReg k) r.value.x).setF (yReg k) r.value.y).withDraws r.drawn

/-- The reset event writes every register, with the same draws in both. -/
theorem State.agree.resetEvent : s.resetEvent.agree t.resetEvent := by
  have heq : t.resetEvent = s.resetEvent := by rw [h.eq_with]; rfl
  rw [heq]
  exact State.agree_refl _

end

/-! ### Commands, host actions and steps -/

/-- What O55 asks of the outcomes of two runs: where the first completes so does the second, in an
agreeing state, and where the first stops the second stops with the same fault. -/
def OutcomesAgree (o p : Host.Outcome State Fault Refusal) : Prop :=
  (∀ s', o = .next s' → ∃ t', p = .next t' ∧ s'.agree t') ∧ ∀ r, o = .fault r → p = .fault r

theorem OutcomesAgree.next {s t : State} (h : s.agree t) : OutcomesAgree (.next s) (.next t) :=
  ⟨fun _ hs => ⟨t, rfl, by cases hs; exact h⟩, nofun⟩

theorem OutcomesAgree.fault (r : Fault) : OutcomesAgree (.fault r) (.fault r) :=
  ⟨nofun, fun _ hr => hr⟩

section
variable {s t : State} (h : s.agree t)
include h

/-- A ready command takes the same operands in both runs and then makes the same updates. -/
theorem exec_agree {i : Instr} (hr : s.ready i = true) : OutcomesAgree (exec i s) (exec i t) := by
  cases i with
  | fadd rd ra rb =>
    obtain ⟨ha, hb⟩ := Bool.and_eq_true_iff.mp hr
    simp only [exec, execFadd, h.freg ha, h.freg hb]
    exact .next (h.setF rd _).ok
  | fmul rd ra rb =>
    obtain ⟨ha, hb⟩ := Bool.and_eq_true_iff.mp hr
    simp only [exec, execFmul, h.freg ha, h.freg hb]
    split
    · exact .next h.illegalCommand
    · exact .next ((h.emit _).setF rd _).ok
  | fsqr rd ra =>
    simp only [exec, execFsqr, h.freg hr]
    exact .next ((h.emit _).setF rd _).ok
  | finv rd ra =>
    simp only [exec, execFinv, h.freg hr]
    exact .next ((h.emit _).setFOpen rd _).ok
  | fisz ra =>
    simp only [exec, execFisz, h.freg hr]
    exact .next (h.setT _).ok
  | feq ra rb =>
    obtain ⟨ha, hb⟩ := Bool.and_eq_true_iff.mp hr
    simp only [exec, execFeq, h.freg ha, h.freg hb]
    exact .next (h.setT _).ok
  | fdeg ra =>
    simp only [exec, execFdeg, h.freg hr]
    exact .next ((h.setDeg _).setT _).ok
  | pdbl rd =>
    simp only [exec, execPdbl, h.preg hr, h.startRun]
    exact .next (h.endRun rd _).ok
  | padd rd ra =>
    obtain ⟨hd, ha⟩ := Bool.and_eq_true_iff.mp hr
    simp only [exec, execPadd, h.preg hd, h.preg ha, h.startRun]
    exact .next (h.endRun rd _).ok
  | pval ra =>
    simp only [exec, execPval, h.preg hr]
    exact .next ((h.emit _).setT _).ok
  | pisz ra =>
    simp only [exec, execPisz, h.preg hr]
    exact .next (h.setT _).ok
  | smul rd ra bw =>
    obtain ⟨ha, hk⟩ := Bool.and_eq_true_iff.mp hr
    simp only [exec, execSmul, h.preg ha, h.k hk, h.scalarRun]
    split
    · exact .next h.illegalCommand
    · exact .next (h.endRun rd _).ok
  | kgen rd =>
    have hf := h.rngFill Config.privBytes
    simp only [exec, execKgen, State.generateKeyPair, h.rngAnswer, hf.scalarRun]
    split
    · exact .next ((hf.setK _).endRun rd _).ok
    · exact .next (hf.raise _)
  | ssec rd ra =>
    obtain ⟨ha, hk⟩ := Bool.and_eq_true_iff.mp hr
    simp only [exec, execSsec, State.secretRun, h.preg ha, h.k hk, h.scalarRun]
    split
    · exact .next ((h.emit _).raise _)
    · exact .next ((h.emit _).endRun rd _).ok

theorem runCommand_agree {bs : List Byte} (hsafe : s.safeAction (.write cmdAddr bs) = true) :
    OutcomesAgree (runCommand bs s) (runCommand bs t) := by
  simp only [State.safeAction, ↓reduceIte] at hsafe
  unfold runCommand
  cases hd : decodeBytes bs with
  | ok i => exact exec_agree h (by simpa [hd] using hsafe)
  | error e => exact .next h.illegalCommand

theorem State.agree.memRead {addr n : Nat} (hsafe : s.safeAction (.read addr n) = true) :
    t.memRead addr n = s.memRead addr n := by
  obtain ⟨hbytes, -⟩ := State.agree_iff_slots.mp h
  have hb : t.readByte addr = s.readByte addr := by
    simp only [State.safeAction] at hsafe
    unfold State.readByte
    cases hs : slotOf addr with
    | none => rfl
    | some r =>
      rw [hs] at hsafe
      exact congrArg some (hbytes r hsafe).symm
  simp only [State.memRead, hb, h.readWord]

theorem busRead_agree {addr n : Nat} (hsafe : s.safeAction (.read addr n) = true) :
    OutcomesAgree (busRead addr n s) (busRead addr n t) := by
  unfold busRead
  rw [h.memRead hsafe]
  cases s.memRead addr n with
  | some bs => exact .next (h.withReadData bs)
  | none => exact .fault _

theorem busWrite_agree {addr : Nat} {bs : List Byte}
    (hsafe : s.safeAction (.write addr bs) = true) :
    OutcomesAgree (busWrite addr bs s) (busWrite addr bs t) := by
  unfold busWrite
  split
  · cases slotOf addr with
    | some r => exact .next (h.setSlot _ r)
    | none => exact .fault _
  · split
    · rename_i hc
      obtain ⟨rfl, -⟩ := hc
      exact runCommand_agree h hsafe
    · exact .fault _

theorem hostAction_agree {a : HostAction} (hsafe : s.safeAction a = true) :
    OutcomesAgree (hostAction a s) (hostAction a t) := by
  cases a with
  | read addr n => exact busRead_agree h hsafe
  | write addr bs => exact busWrite_agree h hsafe
  | reset => exact .next h.resetEvent

theorem step_agree (hsafe : s.safeStep = true) : OutcomesAgree (step s) (step t) := by
  cases hs : s.host with
  | nil =>
    rw [step_idle hs, step_idle (h.host.trans hs)]
    exact .next h
  | cons a rest =>
    rw [step_action hs, step_action (h.host.trans hs)]
    have ha : s.safeAction a = true := by simpa [State.safeStep, hs] using hsafe
    exact hostAction_agree (h.withHost rest) ha

end

/-- Settles O55: agreement is kept by the next host action, whichever it is. -/
theorem unwrittenBytesNeverMatter : Obligations.UnwrittenBytesNeverMatter :=
  fun _ _ h hsafe => step_agree h hsafe

end Machine

end Sys2Proof
end

section
/-! Proofs about host access (20_memory.md R29 to R37): which slot each window offset shows, what the
step of a read or of a byte write does, which accesses are refused, and a run of byte writes. -/

set_option autoImplicit false

namespace Sys2Proof.Machine

/-! ### The slot at each window offset (R30) -/

theorem slotOf_fwin (n : FReg) {d : Nat} (hd : d < 32) :
    slotOf (0x20 * n.val + d) = some (fwinSlot n d) := by
  have hn := n.isLt
  rw [slotOf, dif_pos (by omega)]
  congr 2
  · exact Fin.ext (by simp only; omega)
  · omega

theorem slotOf_pwin (k : PReg) {d : Nat} (hd : d < 64) :
    slotOf (0x100 + 0x40 * k.val + d) = some (pwinSlot k d) := by
  have hk := k.isLt
  rw [slotOf, dif_neg (by omega), dif_pos (by omega)]
  congr 2
  · exact Fin.ext (by simp only; omega)
  · omega

theorem slotOf_kwin {d : Nat} (hd : d < 32) : slotOf (0x200 + d) = some (kwinSlot d) := by
  rw [slotOf, dif_neg (by omega), dif_neg (by omega), if_pos (by omega), Nat.add_sub_cancel_left]

theorem slotOf_eq_none {addr : Nat} (h : ¬ addr < 0x220) : slotOf addr = none := by
  rwa [← Option.not_isSome_iff_eq_none, slotOf_isSome]

/-- The 60 offsets of a point's wire form address 60 different bytes (R33). -/
theorem pwinSlot_injective (k : PReg) : Function.Injective fun j : Fin 60 => pwinSlot k j.val := by
  intro i j h
  have hxy := xReg_ne_yReg k k
  simp only [pwinSlot, i.isLt, j.isLt, if_true] at h
  split at h <;> split at h <;>
    simp only [Slot.fByte.injEq, true_and, Fin.mk.injEq, hxy, hxy.symm, false_and] at h
  -- x and y are different registers; within one half the byte index falls with the offset
  · omega
  · omega

theorem pwinSlot_ne_pad (k : PReg) (j : Fin 60) : pwinSlot k j.val ≠ .pad := by
  rw [pwinSlot]
  split
  · nofun
  · rw [if_pos j.isLt]
    nofun

/-! ### Reading a byte -/

theorem State.readByte_of_slotOf (s : State) {addr : Nat} {r : Slot} (h : slotOf addr = some r) :
    s.readByte addr = some (s.slotByte r) := by
  rw [State.readByte, h, Option.map_some]

/-- Settles O40: the slot at each window offset, and the bits that slot shows. -/
theorem windowBytesAreTheRegisterBits : Obligations.WindowBytesAreTheRegisterBits := by
  intro s
  refine ⟨fun n d hd => ?_, fun n d h30 hd => ?_, fun k j hj => ?_, fun k j h30 hj => ?_,
    fun k j h60 hj => ?_, fun j hj => ?_, fun j h30 hj => ?_, fun addr h => ?_⟩
  · rw [s.readByte_of_slotOf (slotOf_fwin n (by omega)), fwinSlot, dif_pos hd]
    rfl
  · rw [s.readByte_of_slotOf (slotOf_fwin n hd), fwinSlot, dif_neg (by omega)]
    rfl
  · rw [s.readByte_of_slotOf (slotOf_pwin k (by omega)), pwinSlot, dif_pos hj]
    rfl
  · rw [s.readByte_of_slotOf (slotOf_pwin k (by omega)), pwinSlot, dif_neg (by omega), if_pos hj]
    rfl
  · rw [s.readByte_of_slotOf (slotOf_pwin k hj), pwinSlot, dif_neg (by omega), if_neg (by omega)]
    rfl
  · rw [s.readByte_of_slotOf (slotOf_kwin (by omega)), kwinSlot, if_pos hj]
    rfl
  · rw [s.readByte_of_slotOf (slotOf_kwin hj), kwinSlot, if_neg (by omega)]
    rfl
  · rw [State.readByte, slotOf_eq_none (by omega), Option.map_none]

/-! ### The step of a read (R37) -/

theorem hostAction_read {s : State} {addr n : Nat} {bs : List Byte}
    (h : s.memRead addr n = some bs) :
    hostAction (.read addr n) s = .next { s with readData := bs } := by
  rw [hostAction, busRead, h]

theorem hostAction_read_refused {s : State} {addr n : Nat} (h : s.memRead addr n = none) :
    hostAction (.read addr n) s = .fault (.busError false addr n) := by
  rw [hostAction, busRead, h]

/-- Settles O45: no byte of the register space depends on the host list or on the bytes returned. -/
theorem readsChangeNothing : Obligations.ReadsChangeNothing := by
  intro s addr n bs rest hhost hread
  exact ⟨_, (step_action hhost).trans (hostAction_read hread), rfl, hread, fun _ => rfl⟩

/-! ### The step of a byte write (R27, R31, R32, R37) -/

theorem hostAction_write {addr : Nat} {r : Slot} (s : State) (b : Byte) (h : slotOf addr = some r) :
    hostAction (.write addr [b]) s = .next (s.setSlot b r) := by
  simp only [hostAction, busWrite, h]

theorem hostAction_write_refused {addr : Nat} (s : State) (b : Byte) (h : slotOf addr = none) :
    hostAction (.write addr [b]) s = .fault (.busError true addr 1) := by
  simp only [hostAction, busWrite, h]

/-- A write of any other length than one byte runs the command at CMD, or is refused. -/
theorem busWrite_of_length_ne_one {addr : Nat} {bs : List Byte} (s : State) (h : bs.length ≠ 1) :
    busWrite addr bs s = if addr = cmdAddr ∧ bs.length = 4 then runCommand bs s
      else .fault (.busError true addr bs.length) := by
  unfold busWrite
  split
  · exact absurd rfl h
  · rfl

/-- A slot write touches the registers and the masks of written bytes only. -/
theorem State.setSlot_eq_with (s : State) (b : Byte) (r : Slot) :
    s.setSlot b r = { s with
      f := (s.setSlot b r).f, k := (s.setSlot b r).k
      wrF := (s.setSlot b r).wrF, wrK := (s.setSlot b r).wrK } := by
  cases r <;> rfl

/-- Every offset that shows the written slot reads as the byte, every other as before. -/
theorem State.readByte_setSlot (s : State) (b : Byte) (r : Slot) (addr : Nat) :
    (s.setSlot b r).readByte addr =
      if slotOf addr = some r ∧ r ≠ .pad then some b else s.readByte addr := by
  unfold State.readByte
  cases slotOf addr with
  | none => simp
  | some q =>
    rw [Option.map_some, State.slotByte_setSlot, Option.map_some, apply_ite some]
    simp only [Option.some.injEq, eq_comm]

/-- Settles O41: the step writes one slot, and what a slot write does to bytes and marks. -/
theorem windowWriteReplacesOneByte : Obligations.WindowWriteReplacesOneByte := by
  intro s addr b slot rest hhost hslot
  refine ⟨({ s with host := rest } : State).setSlot b slot,
    (step_action hhost).trans (hostAction_write _ b hslot), State.readByte_setSlot _ b slot,
    State.slotWritten_setSlot _ b slot, fun hpad => by rw [hpad]; rfl, ?_⟩
  rw [State.setSlot_eq_with]
  exact ⟨rfl, rfl, rfl, rfl, rfl, rfl, rfl, rfl, rfl⟩

/-! ### Refused accesses (R29, R36) -/

theorem State.readByte_isSome (s : State) (addr : Nat) :
    (s.readByte addr).isSome = true ↔ addr < 0x220 := by
  rw [State.readByte, Option.isSome_map, slotOf_isSome]

theorem State.readWord_isSome (s : State) (addr : Nat) :
    (s.readWord addr).isSome = true ↔ addr = 0x300 ∨ addr = 0x304 ∨ addr = 0x308 := by
  unfold State.readWord cmdAddr statusAddr degAddr
  split_ifs <;> simp [*]

/-- The reads of R29: one byte of a data window, or the word of a control register. -/
theorem State.memRead_isSome (s : State) (addr n : Nat) : (s.memRead addr n).isSome = true ↔
    (n = 1 ∧ addr < 0x220) ∨ (n = 4 ∧ (addr = 0x300 ∨ addr = 0x304 ∨ addr = 0x308)) := by
  unfold State.memRead
  split_ifs with h1 h4
  · simp [h1, s.readByte_isSome]
  · simp [h4, s.readWord_isSome]
  · simp [h1, h4]

theorem exec_completes (i : Instr) (s : State) : ∃ t, exec i s = .next t := by
  cases i <;> exact ⟨_, rfl⟩

theorem runCommand_completes (bs : List Byte) (s : State) : ∃ t, runCommand bs s = .next t := by
  unfold runCommand
  split
  · exact exec_completes _ s
  · exact ⟨_, rfl⟩

/-- The reads that have a step. -/
theorem hostAction_read_outcome (s : State) (addr n : Nat) :
    if (n = 1 ∧ addr < 0x220) ∨ (n = 4 ∧ (addr = 0x300 ∨ addr = 0x304 ∨ addr = 0x308)) then
      ∃ t, hostAction (.read addr n) s = .next t
    else hostAction (.read addr n) s = .fault (.busError false addr n) := by
  simp only [← s.memRead_isSome]
  cases h : s.memRead addr n with
  | some bs => exact ⟨_, hostAction_read h⟩
  | none => exact hostAction_read_refused h

/-- The writes that have a step: one byte addresses a slot, four bytes at CMD run a command. -/
theorem hostAction_write_outcome (s : State) (addr : Nat) (bs : List Byte) :
    if (bs.length = 1 ∧ addr < 0x220) ∨ (bs.length = 4 ∧ addr = 0x300) then
      ∃ t, hostAction (.write addr bs) s = .next t
    else hostAction (.write addr bs) s = .fault (.busError true addr bs.length) := by
  by_cases h1 : bs.length = 1
  · obtain ⟨b, rfl⟩ := List.length_eq_one_iff.mp h1
    have hallowed : ([b].length = 1 ∧ addr < 0x220) ∨ ([b].length = 4 ∧ addr = 0x300) ↔
        (slotOf addr).isSome = true := by simp [slotOf_isSome]
    simp only [hallowed]
    cases h : slotOf addr with
    | some r => exact ⟨_, hostAction_write s b h⟩
    | none => exact hostAction_write_refused s b h
  · have hallowed : (bs.length = 1 ∧ addr < 0x220) ∨ (bs.length = 4 ∧ addr = 0x300) ↔
        addr = cmdAddr ∧ bs.length = 4 := by simp [h1, cmdAddr, and_comm]
    simp only [hallowed, hostAction, busWrite_of_length_ne_one s h1]
    split
    · exact runCommand_completes bs s
    · rfl

/-- Settles O43: a read by the bytes it returns, a write by its length. -/
theorem refusedAccessesAreAllOthers : Obligations.RefusedAccessesAreAllOthers :=
  fun s addr n bs => ⟨hostAction_read_outcome s addr n, hostAction_write_outcome s addr bs⟩

/-! ### A run of byte writes (R33) -/

theorem run_succ {s t : State} (h : step s = .next t) (k : Nat) :
    Host.Core.run core (k + 1) s = Host.Core.run core k t := by
  have hstep : core.step s = .next t := h
  simp only [Host.Core.run, hstep]

/-- Byte writes at offsets that address different bytes: each of them reads as the byte written, in
whatever order they were written, and the others as before. -/
theorem run_byteWrites {ι : Type} [DecidableEq ι] {addr : ι → Nat} {slot : ι → Slot} (v : ι → Byte)
    (hslot : ∀ j, slotOf (addr j) = some (slot j)) (hinj : slot.Injective)
    (hpad : ∀ j, slot j ≠ .pad) {rest : List HostAction} (js : List ι) {s : State}
    (hhost : s.host = js.map (fun j => .write (addr j) [v j]) ++ rest) :
    ∃ t, Host.Core.run core js.length s = .next t ∧ t.host = rest ∧
      ∀ i, t.readByte (addr i) = if i ∈ js then some (v i) else s.readByte (addr i) := by
  induction js generalizing s with
  | nil => exact ⟨s, rfl, hhost, fun _ => rfl⟩
  | cons j js ih =>
    obtain ⟨t, hrun, ht, hread⟩ :=
      ih (s := ({ s with host := _ } : State).setSlot (v j) (slot j))
        (by rw [State.setSlot_eq_with])
    have hstep := (step_action hhost).trans (hostAction_write _ (v j) (hslot j))
    refine ⟨t, (run_succ hstep _).trans hrun, ht, fun i => ?_⟩
    rw [hread, State.readByte_setSlot]
    by_cases hij : i = j
    · simp [hij, hslot, hpad]
    · simp only [hslot, Option.some.injEq, hinj.eq_iff, hij, false_and, if_false, List.mem_cons,
        false_or]
      rfl

/-- Settles O42: the 60 offsets of `PWIN[k]` address 60 different bytes. -/
theorem pointWireFormRoundTrips : Obligations.PointWireFormRoundTrips := by
  intro s k v rest hhost
  obtain ⟨t, hrun, ht, hread⟩ := run_byteWrites (fun j : Fin 60 => v[j])
    (fun j => slotOf_pwin k (by omega)) (pwinSlot_injective k) (pwinSlot_ne_pad k)
    (List.finRange 60) hhost
  rw [List.length_finRange] at hrun
  exact ⟨t, hrun, ht, fun j => by rw [hread, if_pos (List.mem_finRange j)]⟩

end Sys2Proof.Machine
end

section
/-! Proofs about the command word (30_encoding.md R44 to R53): what each check and each operand shape
accepts, that an accepted word is the word of its command, and which words are illegal. -/

set_option autoImplicit false

namespace Sys2Proof

/-! ### A word is its five fields (R45) -/

theorem assemble_fields (w : Word) :
    assemble (opField w) (rdField w) (raField w) (rbField w) (immField w) = w := by
  apply BitVec.eq_of_getLsbD_eq
  intro i hi
  simp only [assemble, opField, rdField, raField, rbField, immField, BitVec.getLsbD_append,
    BitVec.getLsbD_extractLsb']
  grind

theorem assemble_eq_iff {op : BitVec 8} {rd ra rb : BitVec 4} {imm : BitVec 12} {w : Word} :
    assemble op rd ra rb imm = w ↔
      (opField w).toNat = op.toNat ∧ rdField w = rd ∧ raField w = ra ∧ rbField w = rb ∧
        immField w = imm := by
  constructor
  · rintro rfl
    simp
  · rintro ⟨hop, rfl, rfl, rfl, rfl⟩
    rw [← BitVec.eq_of_toNat_eq hop, assemble_fields]

@[simp] theorem ofFReg_mk_toNat (x : BitVec 4) (h : x.toNat < 8) : ofFReg ⟨x.toNat, h⟩ = x := by
  simp [ofFReg]

@[simp] theorem ofPReg_mk_toNat (x : BitVec 4) (h : x.toNat < 4) : ofPReg ⟨x.toNat, h⟩ = x := by
  simp [ofPReg]

/-! ### What each check accepts (R46, R47, R50, R51) -/

section Checks

variable {i j : Instr} {x : BitVec 4}

theorem asFReg_bind_eq_ok {f : FReg → Except Illegal Instr} :
    (asFReg x >>= f) = .ok i ↔ ∃ h : x.toNat < 8, f ⟨x.toNat, h⟩ = .ok i := by
  unfold asFReg
  split <;> simp [bind, Except.bind, *]

theorem asPReg_bind_eq_ok {f : PReg → Except Illegal Instr} :
    (asPReg x >>= f) = .ok i ↔ ∃ h : x.toNat < 4, f ⟨x.toNat, h⟩ = .ok i := by
  unfold asPReg
  split <;> simp [bind, Except.bind, *]

theorem unused_bind_eq_ok {f : Unit → Except Illegal Instr} :
    (unused x >>= f) = .ok i ↔ x = 0 ∧ f () = .ok i := by
  unfold unused
  split <;> simp_all [bind, Except.bind]

theorem noImm_bind_eq_ok {imm : BitVec 12} {f : Unit → Except Illegal Instr} :
    (noImm imm >>= f) = .ok i ↔ imm = 0 ∧ f () = .ok i := by
  unfold noImm
  split <;> simp_all [bind, Except.bind]

theorem checkWf_eq_ok : checkWf i = .ok j ↔ i.wf = true ∧ i = j := by
  unfold checkWf
  split
  · simp [*]
  · split <;> simp [*]

theorem Instr.wf_smul (rd ra : PReg) (bw : BitVec 12) :
    (Instr.smul rd ra bw).wf = true ↔ bw.toNat ≤ 240 :=
  decide_eq_true_iff

end Checks

/-! ### What each operand shape accepts -/

section Shapes

variable {w : Word} {i : Instr}

theorem decodeFFF_eq_ok {mk : FReg → FReg → FReg → Instr} :
    decodeFFF w mk = .ok i ↔
      immField w = 0 ∧ ∃ (hd : (rdField w).toNat < 8) (ha : (raField w).toNat < 8)
        (hb : (rbField w).toNat < 8),
        (mk ⟨_, hd⟩ ⟨_, ha⟩ ⟨_, hb⟩).wf = true ∧ mk ⟨_, hd⟩ ⟨_, ha⟩ ⟨_, hb⟩ = i := by
  simp only [decodeFFF, noImm_bind_eq_ok, asFReg_bind_eq_ok, checkWf_eq_ok]

theorem decodeFF_eq_ok {mk : FReg → FReg → Instr} :
    decodeFF w mk = .ok i ↔
      immField w = 0 ∧ rbField w = 0 ∧
        ∃ (hd : (rdField w).toNat < 8) (ha : (raField w).toNat < 8),
          (mk ⟨_, hd⟩ ⟨_, ha⟩).wf = true ∧ mk ⟨_, hd⟩ ⟨_, ha⟩ = i := by
  simp only [decodeFF, noImm_bind_eq_ok, unused_bind_eq_ok, asFReg_bind_eq_ok, checkWf_eq_ok]

theorem decodeSS_eq_ok {mk : FReg → FReg → Instr} :
    decodeSS w mk = .ok i ↔
      immField w = 0 ∧ rdField w = 0 ∧
        ∃ (ha : (raField w).toNat < 8) (hb : (rbField w).toNat < 8),
          (mk ⟨_, ha⟩ ⟨_, hb⟩).wf = true ∧ mk ⟨_, ha⟩ ⟨_, hb⟩ = i := by
  simp only [decodeSS, noImm_bind_eq_ok, unused_bind_eq_ok, asFReg_bind_eq_ok, checkWf_eq_ok]

theorem decodeS_eq_ok {mk : FReg → Instr} :
    decodeS w mk = .ok i ↔
      immField w = 0 ∧ rdField w = 0 ∧ rbField w = 0 ∧
        ∃ ha : (raField w).toNat < 8, (mk ⟨_, ha⟩).wf = true ∧ mk ⟨_, ha⟩ = i := by
  simp only [decodeS, noImm_bind_eq_ok, unused_bind_eq_ok, asFReg_bind_eq_ok, checkWf_eq_ok]

theorem decodePd_eq_ok {mk : PReg → Instr} :
    decodePd w mk = .ok i ↔
      immField w = 0 ∧ raField w = 0 ∧ rbField w = 0 ∧
        ∃ hd : (rdField w).toNat < 4, (mk ⟨_, hd⟩).wf = true ∧ mk ⟨_, hd⟩ = i := by
  simp only [decodePd, noImm_bind_eq_ok, unused_bind_eq_ok, asPReg_bind_eq_ok, checkWf_eq_ok]

theorem decodePa_eq_ok {mk : PReg → Instr} :
    decodePa w mk = .ok i ↔
      immField w = 0 ∧ rdField w = 0 ∧ rbField w = 0 ∧
        ∃ ha : (raField w).toNat < 4, (mk ⟨_, ha⟩).wf = true ∧ mk ⟨_, ha⟩ = i := by
  simp only [decodePa, noImm_bind_eq_ok, unused_bind_eq_ok, asPReg_bind_eq_ok, checkWf_eq_ok]

theorem decodePP_eq_ok {mk : PReg → PReg → Instr} :
    decodePP w mk = .ok i ↔
      immField w = 0 ∧ rbField w = 0 ∧
        ∃ (hd : (rdField w).toNat < 4) (ha : (raField w).toNat < 4),
          (mk ⟨_, hd⟩ ⟨_, ha⟩).wf = true ∧ mk ⟨_, hd⟩ ⟨_, ha⟩ = i := by
  simp only [decodePP, noImm_bind_eq_ok, unused_bind_eq_ok, asPReg_bind_eq_ok, checkWf_eq_ok]

theorem decodePPI_eq_ok {mk : PReg → PReg → BitVec 12 → Instr} :
    decodePPI w mk = .ok i ↔
      rbField w = 0 ∧ ∃ (hd : (rdField w).toNat < 4) (ha : (raField w).toNat < 4),
        (mk ⟨_, hd⟩ ⟨_, ha⟩ (immField w)).wf = true ∧ mk ⟨_, hd⟩ ⟨_, ha⟩ (immField w) = i := by
  simp only [decodePPI, unused_bind_eq_ok, asPReg_bind_eq_ok, checkWf_eq_ok]

end Shapes

/-! ### Legal words -/

/-- Settles O1, from the decoder reading back each field the encoder writes. -/
theorem decodeOfEncodeIsTheCommand : Obligations.DecodeOfEncodeIsTheCommand :=
  fun _ => decode_encode

/-- By opcode: the shape accepts only words whose five fields are those the encoder writes. -/
theorem encode_of_decode {w : Word} {i : Instr} (h : decode w = .ok i) :
    encode i = w ∧ i.wf = true := by
  unfold decode at h
  split at h
  case h_1 hop | h_2 hop =>
    -- FADD and FMUL
    obtain ⟨himm, hd, ha, hb, hwf, rfl⟩ := decodeFFF_eq_ok.mp h
    exact ⟨by simp [encode, assemble_eq_iff, *], hwf⟩
  case h_3 hop | h_4 hop =>
    -- FSQR and FINV
    obtain ⟨himm, hrb, hd, ha, hwf, rfl⟩ := decodeFF_eq_ok.mp h
    exact ⟨by simp [encode, assemble_eq_iff, *], hwf⟩
  case h_5 hop | h_7 hop =>
    -- FISZ and FDEG
    obtain ⟨himm, hrd, hrb, ha, hwf, rfl⟩ := decodeS_eq_ok.mp h
    exact ⟨by simp [encode, assemble_eq_iff, *], hwf⟩
  case h_6 hop =>
    -- FEQ
    obtain ⟨himm, hrd, ha, hb, hwf, rfl⟩ := decodeSS_eq_ok.mp h
    exact ⟨by simp [encode, assemble_eq_iff, *], hwf⟩
  case h_8 hop | h_13 hop =>
    -- PDBL and KGEN
    obtain ⟨himm, hra, hrb, hd, hwf, rfl⟩ := decodePd_eq_ok.mp h
    exact ⟨by simp [encode, assemble_eq_iff, *], hwf⟩
  case h_9 hop | h_14 hop =>
    -- PADD and SSEC
    obtain ⟨himm, hrb, hd, ha, hwf, rfl⟩ := decodePP_eq_ok.mp h
    exact ⟨by simp [encode, assemble_eq_iff, *], hwf⟩
  case h_10 hop | h_11 hop =>
    -- PVAL and PISZ
    obtain ⟨himm, hrd, hrb, ha, hwf, rfl⟩ := decodePa_eq_ok.mp h
    exact ⟨by simp [encode, assemble_eq_iff, *], hwf⟩
  case h_12 hop =>
    -- SMUL
    obtain ⟨hrb, hd, ha, hwf, rfl⟩ := decodePPI_eq_ok.mp h
    exact ⟨by simp [encode, assemble_eq_iff, *], hwf⟩
  case h_15 => cases h

/-- Settles O2, by the fields each operand shape accepts. -/
theorem legalWordIsTheEncodingOfItsCommand : Obligations.LegalWordIsTheEncodingOfItsCommand :=
  fun _ _ => encode_of_decode

/-- Settles O3, by evaluating the decoder on the sixteen words. -/
theorem specExampleWordsDecode : Obligations.SpecExampleWordsDecode := by
  unfold Obligations.SpecExampleWordsDecode
  decide

/-! ### Illegal words -/

/-- Settles O4, by opcode: what the opcode's operand shape accepts, with FMUL's and SMUL's
constraint. -/
theorem illegalWordsAreThoseOfTheRules : Obligations.IllegalWordsAreThoseOfTheRules := by
  intro w
  simp only [ne_eq, ← not_exists]
  unfold decode
  split
  case h_1 hop | h_2 hop =>
    -- FADD and FMUL
    simp [decodeFFF_eq_ok, Instr.wf, hop, BitVec.toNat_eq]
    omega
  case h_3 hop | h_4 hop =>
    -- FSQR and FINV
    simp [decodeFF_eq_ok, Instr.wf, hop, BitVec.toNat_eq]
    omega
  case h_5 hop | h_7 hop =>
    -- FISZ and FDEG
    simp [decodeS_eq_ok, Instr.wf, hop, BitVec.toNat_eq]
    omega
  case h_6 hop =>
    -- FEQ
    simp [decodeSS_eq_ok, Instr.wf, hop, BitVec.toNat_eq]
    omega
  case h_8 hop | h_13 hop =>
    -- PDBL and KGEN
    simp [decodePd_eq_ok, Instr.wf, hop, BitVec.toNat_eq]
    omega
  case h_9 hop | h_14 hop =>
    -- PADD and SSEC
    simp [decodePP_eq_ok, Instr.wf, hop, BitVec.toNat_eq]
    omega
  case h_10 hop | h_11 hop =>
    -- PVAL and PISZ
    simp [decodePa_eq_ok, Instr.wf, hop, BitVec.toNat_eq]
    omega
  case h_12 hop =>
    -- SMUL
    simp [decodePPI_eq_ok, Instr.wf_smul, hop, BitVec.toNat_eq]
    omega
  case h_15 =>
    -- a reserved opcode
    simp only [imp_false] at *
    refine iff_of_true (by simp) (.inl ?_)
    omega

namespace Machine

/-- Settles O6: the step takes the write, and the decoder's error makes it an illegal command. -/
theorem illegalWordSetsErrAndNothingElse : Obligations.IllegalWordSetsErrAndNothingElse := by
  intro w s rest hw hhost
  rw [step_action hhost, hostAction, busWrite_cmd, runCommand_wordBytes]
  cases hd : decode w with
  | ok i => exact absurd hd (hw i)
  | error e => rfl

end Machine

end Sys2Proof
end

section
/-! Proofs about the field functions (40_field.md R56, R59): bit vectors as polynomials over GF(2),
where `ClMul` is the product and `Spread` the square. -/

set_option autoImplicit false

namespace Sys2Proof

open Polynomial

/-! ### Bit vectors as polynomials over GF(2) (R7) -/

/-- The polynomial over GF(2) whose coefficients are the bits of `c` (R7). -/
noncomputable def toPoly {w : Nat} (c : BitVec w) : (ZMod 2)[X] :=
  ∑ i ∈ Finset.range w, if c.getLsbD i then X ^ i else 0

section toPoly

variable {w : Nat}

theorem coeff_toPoly (c : BitVec w) (n : Nat) :
    (toPoly c).coeff n = if c.getLsbD n then 1 else 0 := by
  have hterm : ∀ i, (if c.getLsbD i then (X : (ZMod 2)[X]) ^ i else 0).coeff n =
      if n = i then (if c.getLsbD n then 1 else 0) else 0 := by
    intro i
    by_cases h : n = i
    · subst h
      split <;> simp
    · split <;> simp [coeff_X_pow, h]
  simp only [toPoly, finsetSum_coeff, hterm, Finset.sum_ite_eq, Finset.mem_range]
  by_cases h : n < w
  · rw [if_pos h]
  · rw [if_neg h, BitVec.getLsbD_of_ge c n (by omega)]
    rfl

theorem toPoly_injective : Function.Injective (toPoly (w := w)) := by
  intro a b h
  apply BitVec.eq_of_getLsbD_eq
  intro i _
  have hi := congrArg (fun p => p.coeff i) h
  simp only [coeff_toPoly] at hi
  cases ha : a.getLsbD i <;> cases hb : b.getLsbD i <;> simp_all

@[simp] theorem toPoly_zero : toPoly 0#w = 0 := by
  ext n
  simp [coeff_toPoly]

theorem toPoly_xor (a b : BitVec w) : toPoly (a ^^^ b) = toPoly a + toPoly b := by
  ext n
  simp only [coeff_add, coeff_toPoly, BitVec.getLsbD_xor]
  cases a.getLsbD n <;> cases b.getLsbD n <;> decide

/-- A change of width that cuts no set bit keeps the polynomial. -/
theorem toPoly_setWidth {v : Nat} (c : BitVec w) (h : ∀ i, v ≤ i → c.getLsbD i = false) :
    toPoly (c.setWidth v) = toPoly c := by
  ext n
  rw [coeff_toPoly, coeff_toPoly, BitVec.getLsbD_setWidth]
  by_cases hn : n < v
  · simp [hn]
  · simp [h n (by omega)]

/-- A shift that loses no set bit is a product with a power of X. -/
theorem toPoly_shiftLeft (c : BitVec w) (n : Nat) (h : ∀ i, w ≤ i + n → c.getLsbD i = false) :
    toPoly (c <<< n) = toPoly c * X ^ n := by
  ext m
  rw [coeff_toPoly, coeff_mul_X_pow', coeff_toPoly, BitVec.getLsbD_shiftLeft]
  by_cases hn : n ≤ m
  · by_cases hm : m < w
    · simp [hn, hm, show ¬ m < n by omega]
    · simp [hm, h (m - n) (by omega)]
  · simp [hn, show m < n by omega]

end toPoly

/-! ### The product and the square -/

theorem toPoly_clMulUpTo (a b : Elem) {n : Nat} (hn : n ≤ 240) :
    toPoly (clMulUpTo a b n) =
      toPoly a * ∑ i ∈ Finset.range n, if b.getLsbD i then X ^ i else 0 := by
  induction n with
  | zero => simp [clMulUpTo]
  | succ n ih =>
    have hshift : toPoly (a.setWidth 479 <<< n) = toPoly a * X ^ n := by
      rw [toPoly_shiftLeft, toPoly_setWidth]
      · intro i hi
        exact BitVec.getLsbD_of_ge a i (by omega)
      · intro i hi
        rw [BitVec.getLsbD_setWidth, BitVec.getLsbD_of_ge a i (by omega), Bool.and_false]
    rw [clMulUpTo, toPoly_xor, ih (by omega), Finset.sum_range_succ, mul_add]
    by_cases h : b.getLsbD n = true
    · rw [if_pos h, if_pos h, hshift]
    · rw [if_neg h, if_neg h]
      simp

/-- The carry-less product is the product of polynomials (R56). -/
theorem toPoly_clMul (a b : Elem) : toPoly (clMul a b) = toPoly a * toPoly b :=
  toPoly_clMulUpTo a b le_rfl

theorem toPoly_one : toPoly (1 : Elem) = 1 := by
  ext n
  simp [coeff_toPoly, coeff_one, eq_comm]

theorem getLsbD_spreadUpTo (a : Elem) {n : Nat} (hn : n ≤ 240) (i : Nat) :
    (spreadUpTo a n).getLsbD i = (decide (2 ∣ i ∧ i / 2 < n) && a.getLsbD (i / 2)) := by
  induction n with
  | zero => simp [spreadUpTo]
  | succ n ih =>
    have hone : ((1 <<< (2 * n) : Nat) : Product).getLsbD i = decide (i = 2 * n) := by
      simp only [BitVec.natCast_eq_ofNat, BitVec.getLsbD_ofNat, Nat.one_shiftLeft,
        Nat.testBit_two_pow, eq_comm (a := i)]
      grind
    rw [spreadUpTo, BitVec.getLsbD_or, ih (by omega)]
    by_cases hi : i = 2 * n
    · subst hi
      split <;> simp_all
    · have hlt : (2 ∣ i ∧ i / 2 < n + 1) ↔ (2 ∣ i ∧ i / 2 < n) := by omega
      split <;> simp only [hlt, hone, hi] <;> simp

/-- The bits of `Spread(a)`: those of `a` at the even places (R59). -/
theorem getLsbD_spread (a : Elem) (i : Nat) :
    (spread a).getLsbD i = (decide (2 ∣ i) && a.getLsbD (i / 2)) := by
  rw [spread, getLsbD_spreadUpTo a le_rfl]
  by_cases h : i / 2 < 240
  · simp [h]
  · simp [BitVec.getLsbD_of_ge a (i / 2) (by omega)]

/-- Spreading is the square of the polynomial, the Frobenius map of GF(2)[X] (R59). -/
theorem toPoly_spread (a : Elem) : toPoly (spread a) = toPoly a ^ 2 := by
  rw [← ZMod.expand_card]
  ext n
  rw [coeff_expand two_pos, coeff_toPoly, coeff_toPoly, getLsbD_spread]
  by_cases h : 2 ∣ n <;> simp [h]

theorem spread_eq_clMul (a : Elem) : spread a = clMul a a :=
  toPoly_injective (by rw [toPoly_spread, toPoly_clMul, sq])

end Sys2Proof
end

section
/-! Proofs about the field functions (40_field.md R57, R58): the residue modulo the field polynomial f
of a bit vector, and its one canonical representative, which `Reduce` finds. -/

set_option autoImplicit false

namespace Sys2Proof

open Polynomial

/-! ### The quotient by the field polynomial (R57, R71) -/

/-- f = x^233 + x^74 + 1 (R5, R57), marked irreducible so that no proof unfolds its powers. -/
@[irreducible] noncomputable def fieldPoly : (ZMod 2)[X] := X ^ 233 + X ^ 74 + 1

theorem fieldPoly_eq : fieldPoly = X ^ 233 + X ^ 74 + 1 := by unfold fieldPoly; rfl

/-- The ring of the residues modulo f (R71). -/
abbrev Residue : Type := AdjoinRoot fieldPoly

/-- The residue class of a bit vector read as a polynomial. -/
noncomputable def residue {w : Nat} (c : BitVec w) : Residue := AdjoinRoot.mk fieldPoly (toPoly c)

section residue

variable {w : Nat}

@[simp] theorem residue_zero : residue 0#w = 0 := by simp [residue]

@[simp] theorem residue_one : residue 1#240 = 1 := by
  rw [residue, show toPoly 1#240 = 1 from toPoly_one, map_one]

theorem residue_xor (a b : BitVec w) : residue (a ^^^ b) = residue a + residue b := by
  rw [residue, toPoly_xor, map_add]
  rfl

theorem residue_eq_of_toPoly {v : Nat} {c : BitVec w} {d : BitVec v} (h : toPoly c = toPoly d) :
    residue c = residue d := by rw [residue, h, residue]

theorem getLsbD_fPoly (i : Nat) :
    (fPoly w).getLsbD i = (decide (i < w) && decide (i = 0 ∨ i = 74 ∨ i = 233)) := by
  have hor : 2 ^ 233 + 2 ^ 74 + 1 = 2 ^ 233 ||| 2 ^ 74 ||| 2 ^ 0 := by decide
  rw [fPoly, BitVec.getLsbD_ofNat, hor]
  simp only [Nat.testBit_or, Nat.testBit_two_pow]
  grind

theorem toPoly_fPoly (h : 233 < w) : toPoly (fPoly w) = fieldPoly := by
  ext i
  simp only [coeff_toPoly, getLsbD_fPoly, fieldPoly_eq, coeff_add, coeff_X_pow, coeff_one]
  by_cases h0 : i = 0
  · simp [h0, show 0 < w by omega]
  by_cases h74 : i = 74
  · simp [h74, show 74 < w by omega]
  by_cases h233 : i = 233
  · simp [h233, h]
  · simp [h0, h74, h233]

/-- `F_POLY << n` is a multiple of f as long as no bit of it is lost (R57). -/
theorem residue_fPoly_shiftLeft {n : Nat} (h : 233 + n < w) : residue (fPoly w <<< n) = 0 := by
  rw [residue, toPoly_shiftLeft, toPoly_fPoly (by omega), map_mul, AdjoinRoot.mk_self, zero_mul]
  intro i hi
  rw [getLsbD_fPoly, decide_eq_false (p := _ ∨ _) (by omega), Bool.and_false]

/-- Each round of the reduction adds a multiple of f or nothing. -/
theorem residue_reduceFrom (c : BitVec w) {n : Nat} (hn : 233 + n ≤ w) :
    residue (reduceFrom c n) = residue c := by
  induction n generalizing c with
  | zero => rfl
  | succ n ih =>
    rw [reduceFrom, ih _ (by omega)]
    split
    · rw [residue_xor, residue_fPoly_shiftLeft (by omega), add_zero]
    · rfl

/-- The rounds clear every bit from 233 on. -/
theorem getLsbD_reduceFrom (c : BitVec w) (n : Nat) (h : ∀ i, 233 + n ≤ i → c.getLsbD i = false) :
    ∀ i, 233 ≤ i → (reduceFrom c n).getLsbD i = false := by
  induction n generalizing c with
  | zero => exact h
  | succ n ih =>
    rw [reduceFrom]
    apply ih
    intro i hi
    by_cases hc : c.getLsbD (233 + n) = true
    · have hw : 233 + n < w := by
        by_contra hw
        simp [BitVec.getLsbD_of_ge c (233 + n) (by omega)] at hc
      rw [if_pos hc, BitVec.getLsbD_xor, BitVec.getLsbD_shiftLeft, getLsbD_fPoly]
      by_cases he : i = 233 + n
      · simp [he, hc, hw, show 233 < w by omega]
      · simp [h i (by omega)]
        omega
    · rw [if_neg hc]
      by_cases he : i = 233 + n
      · simpa [he] using hc
      · exact h i (by omega)

/-- A remainder is congruent to the value reduced (R57). -/
@[simp] theorem residue_reduce (c : BitVec w) : residue (reduce c) = residue c := by
  have hbits : ∀ i, 233 ≤ i → (reduceFrom c (w - 233)).getLsbD i = false :=
    getLsbD_reduceFrom c _ fun i hi => BitVec.getLsbD_of_ge c i (by omega)
  calc residue (reduce c)
    _ = residue (reduceFrom c (w - 233)) := by
      apply residue_eq_of_toPoly
      rw [reduce, toPoly_setWidth, toPoly_setWidth _ hbits]
      exact fun i hi => BitVec.getLsbD_of_ge _ i (by omega)
    _ = residue c := by
      by_cases hw : 233 ≤ w
      · exact residue_reduceFrom c (by omega)
      · rw [show w - 233 = 0 by omega, reduceFrom]

end residue

@[simp] theorem residue_fMul (a b : Elem) : residue (fMul a b) = residue a * residue b := by
  rw [fMul, residue_reduce, residue, toPoly_clMul, map_mul]
  rfl

@[simp] theorem residue_fSqr (a : Elem) : residue (fSqr a) = residue a ^ 2 := by
  rw [fSqr, residue_reduce, residue, toPoly_spread, map_pow]
  rfl

theorem natDegree_fieldPoly : fieldPoly.natDegree = 233 := by
  rw [fieldPoly_eq]
  compute_degree!

theorem fieldPoly_ne_zero : fieldPoly ≠ 0 :=
  ne_zero_of_natDegree_gt (n := 0) (by rw [natDegree_fieldPoly]; decide)

/-- A canonical value has degree below that of f, so only 0 is congruent to 0. -/
theorem eq_zero_of_residue_eq_zero {a : Elem} (ha : canonical a = true) (h : residue a = 0) :
    a = 0 := by
  have hdeg : (toPoly a).degree < fieldPoly.degree := by
    rw [degree_eq_natDegree fieldPoly_ne_zero, natDegree_fieldPoly]
    refine (degree_lt_iff_coeff_zero _ 233).2 fun i hi => ?_
    rw [coeff_toPoly, (canonical_iff a).1 ha i hi]
    rfl
  rw [residue, AdjoinRoot.mk_eq_zero] at h
  apply toPoly_injective
  exact (eq_zero_of_dvd_of_degree_lt h hdeg).trans toPoly_zero.symm

/-- Canonical values are congruent only when equal: each class has one canonical value (R57). -/
theorem eq_of_residue_eq {a b : Elem} (ha : canonical a = true) (hb : canonical b = true)
    (h : residue a = residue b) : a = b := by
  have hxor : residue (a ^^^ b) = 0 := by
    rw [residue_xor, h, ← residue_xor, BitVec.xor_self, residue_zero]
  exact BitVec.xor_eq_zero_iff.1 (eq_zero_of_residue_eq_zero (canonical_xor ha hb) hxor)

theorem reduce_eq_self {a : Elem} (ha : canonical a = true) : reduce a = a :=
  eq_of_residue_eq (canonical_reduce a) ha (residue_reduce a)

theorem reduce_eq_zero_iff (a : Elem) : reduce a = 0 ↔ residue a = 0 := by
  rw [← residue_reduce]
  exact ⟨fun h => by rw [h]; exact residue_zero, eq_zero_of_residue_eq_zero (canonical_reduce a)⟩

end Sys2Proof
end

section
/-! Proofs about the field functions (40_field.md R72): f is irreducible, by Rabin's test. Its one
computation, 233 squarings of x modulo f, is run on an evaluator tied to the model's `Spread`. -/

set_option autoImplicit false

namespace Sys2Proof

open Polynomial

/-! ### An evaluator of the square that the kernel can run -/

/-- The low `k` bits of `a`, a zero inserted between each two. -/
def spreadNat : Nat → Nat → Nat
  | 0, _ => 0
  | k + 1, a => a % 2 + 4 * spreadNat k (a / 2)

theorem testBit_spreadNat (k a i : Nat) :
    (spreadNat k a).testBit i = (decide (2 ∣ i ∧ i / 2 < k) && a.testBit (i / 2)) := by
  induction k generalizing a i with
  | zero => simp [spreadNat]
  | succ k ih =>
    have hlow : a % 2 < 2 ^ 2 := by omega
    rw [spreadNat, Nat.add_comm, show (4 : Nat) = 2 ^ 2 from rfl,
      Nat.testBit_two_pow_mul_add _ hlow, ih]
    match i with
    | 0 => simp
    | 1 => simp [show (a % 2) / 2 = 0 by omega, Nat.testBit_succ]
    | i + 2 =>
      have hdvd : 2 ∣ i + 2 ↔ 2 ∣ i := by omega
      simp [hdvd, show (i + 2) / 2 = i / 2 + 1 by omega, Nat.testBit_succ]

theorem spread_eq_spreadNat (a : Elem) : spread a = BitVec.ofNat 479 (spreadNat 240 a.toNat) := by
  apply BitVec.eq_of_getLsbD_eq
  intro i hi
  rw [getLsbD_spread, BitVec.getLsbD_ofNat, testBit_spreadNat, BitVec.getLsbD]
  simp [hi, show i / 2 < 240 by omega]

/-- All bits from 233 on moved down at once, by x^233 = x^74 + 1 modulo f. -/
def foldHigh (c : Product) : Product :=
  (c.setWidth 233).setWidth 479 ^^^ (c >>> 233 ^^^ (c >>> 233) <<< 74)

/-- Of `k` bits above 232 a fold leaves only what its shift by 74 puts there. -/
theorem getLsbD_foldHigh {c : Product} {k : Nat} (h : ∀ i, 233 + k ≤ i → c.getLsbD i = false) :
    ∀ i, 233 ≤ i → 74 + k ≤ i → (foldHigh c).getLsbD i = false := by
  intro i hi hk
  simp [foldHigh, h (233 + i) (by omega), h (233 + (i - 74)) (by omega), show ¬ i < 233 by omega]

theorem xor_high_bits (c : Product) :
    (c.setWidth 233).setWidth 479 ^^^ (c >>> 233) <<< 233 = c := by
  apply BitVec.eq_of_getLsbD_eq
  intro i hi
  by_cases h : i < 233
  · simp [h, hi]
  · simp [h, hi, show 233 + (i - 233) = i by omega]

/-- A fold adds a multiple of f. -/
theorem residue_foldHigh (c : Product) : residue (foldHigh c) = residue c := by
  have hX : AdjoinRoot.mk fieldPoly (X ^ 233) = AdjoinRoot.mk fieldPoly (1 + X ^ 74) := by
    rw [AdjoinRoot.mk_eq_mk, CharTwo.sub_eq_add, add_comm 1, ← add_assoc, ← fieldPoly_eq]
  have hbits : ∀ i, 246 ≤ i → (c >>> 233).getLsbD i = false := by
    intro i hi
    rw [BitVec.getLsbD_ushiftRight, BitVec.getLsbD_of_ge c _ (by omega)]
  calc residue (foldHigh c)
    _ = residue ((c.setWidth 233).setWidth 479) +
        AdjoinRoot.mk fieldPoly (toPoly (c >>> 233) * (1 + X ^ 74)) := by
      rw [foldHigh, residue_xor, residue, residue, toPoly_xor,
        toPoly_shiftLeft _ _ fun i hi => hbits i (by omega), mul_add, mul_one]
    _ = residue ((c.setWidth 233).setWidth 479 ^^^ (c >>> 233) <<< 233) := by
      rw [residue_xor, residue, residue,
        toPoly_shiftLeft _ _ fun i hi => hbits i (by omega), map_mul, map_mul, hX]
    _ = residue c := by rw [xor_high_bits]

/-- A value congruent to `FSqr(a)`, cheaper for the kernel than the model's two loops over bits. -/
def fastSqr (a : Elem) : Elem :=
  (foldHigh (foldHigh (BitVec.ofNat 479 (spreadNat 240 a.toNat)))).setWidth 240

theorem residue_fastSqr (a : Elem) : residue (fastSqr a) = residue a ^ 2 := by
  rw [fastSqr, ← spread_eq_spreadNat]
  have hone : ∀ i, 320 ≤ i → (foldHigh (spread a)).getLsbD i = false := fun i hi =>
    getLsbD_foldHigh (k := 246) (fun j hj => BitVec.getLsbD_of_ge _ j hj) i (by omega) hi
  have htwo : ∀ i, 240 ≤ i → (foldHigh (foldHigh (spread a))).getLsbD i = false := fun i hi =>
    getLsbD_foldHigh (k := 87) hone i (by omega) (by omega)
  calc residue ((foldHigh (foldHigh (spread a))).setWidth 240)
    _ = residue (spread a) := by
      rw [residue_eq_of_toPoly (toPoly_setWidth _ htwo), residue_foldHigh, residue_foldHigh]
    _ = residue a ^ 2 := by rw [residue, toPoly_spread, map_pow]; rfl

/-- `n` squarings; the test makes the kernel evaluate each value before the next squaring. -/
def squareTimes : Nat → Elem → Elem
  | 0, a => a
  | n + 1, a => if a = 0 then 0 else squareTimes n (fastSqr a)

theorem residue_squareTimes (n : Nat) (a : Elem) :
    residue (squareTimes n a) = residue a ^ 2 ^ n := by
  induction n generalizing a with
  | zero => rw [squareTimes, pow_zero, pow_one]
  | succ n ih =>
    rw [squareTimes]
    split
    · simp_all
    · rw [ih, residue_fastSqr, ← pow_mul, pow_succ']

/-! ### f is irreducible (R72) -/

/-- Rabin's test at a prime degree over GF(2): f has no root, and X^(2^n) = X modulo f. The degree
of an irreducible factor then divides n, so it is 1 or n. -/
theorem irreducible_of_natDegree_prime {f : (ZMod 2)[X]} {n : Nat} (hprime : n.Prime)
    (hdeg : f.natDegree = n) (hroot : ∀ r, ¬ f.IsRoot r)
    (hpow : AdjoinRoot.root f ^ 2 ^ n = AdjoinRoot.root f) : Irreducible f := by
  have hpos : 0 < f.natDegree := hdeg ▸ hprime.pos
  have hdvd : f ∣ X ^ Nat.card (ZMod 2) ^ n - X := by
    rw [Nat.card_zmod, ← AdjoinRoot.mk_eq_mk, map_pow, AdjoinRoot.mk_X, hpow]
  obtain ⟨g, hg, hgf⟩ := exists_irreducible_of_natDegree_pos hpos
  rcases (Nat.dvd_prime hprime).1
    (hg.natDegree_dvd_of_dvd_X_pow_card_pow_sub_X (hgf.trans hdvd)) with h1 | hn
  · obtain ⟨r, hr⟩ :=
      exists_root_of_degree_eq_one ((degree_eq_iff_natDegree_eq_of_pos one_pos).2 h1)
    exact absurd (hr.dvd hgf) (hroot r)
  · exact (associated_of_dvd_of_natDegree_le hgf (ne_zero_of_natDegree_gt hpos)
      (by rw [hdeg, hn])).irreducible hg

/-- The Frobenius map is an algebra homomorphism, so what fixes the root fixes the quotient. -/
theorem pow_two_pow_of_root {f : (ZMod 2)[X]} {n : Nat}
    (h : AdjoinRoot.root f ^ 2 ^ n = AdjoinRoot.root f) (r : AdjoinRoot f) : r ^ 2 ^ n = r := by
  have hfrob (r : AdjoinRoot f) :
      (FiniteField.frobeniusAlgHom (ZMod 2) (AdjoinRoot f) ^ n) r = r ^ 2 ^ n := by
    rw [AlgHom.coe_pow, FiniteField.coe_frobeniusAlgHom, pow_iterate, ZMod.card]
  have hone : FiniteField.frobeniusAlgHom (ZMod 2) (AdjoinRoot f) ^ n = 1 :=
    AdjoinRoot.algHom_ext (by rw [hfrob, h, AlgHom.one_apply])
  rw [← hfrob, hone, AlgHom.one_apply]

/-- 233 squarings of x, run by the kernel (R72). -/
theorem squareTimes_two : squareTimes 233 2#240 = 2#240 := by decide +kernel

theorem residue_two : residue 2#240 = AdjoinRoot.root fieldPoly := by
  have h : toPoly 2#240 = X := by
    ext n
    have hbit : (2).testBit n = decide (1 = n) := Nat.testBit_two_pow (n := 1)
    rw [coeff_toPoly, coeff_X, BitVec.getLsbD_ofNat, hbit]
    grind
  rw [residue, h, AdjoinRoot.mk_X]

/-- x^(2^233) = x modulo f (R72). -/
theorem root_pow_two_pow : AdjoinRoot.root fieldPoly ^ 2 ^ 233 = AdjoinRoot.root fieldPoly := by
  rw [← residue_two, ← residue_squareTimes, squareTimes_two]

/-- Every residue is a root of X^(2^233) - X. -/
theorem residue_pow_two_pow (r : Residue) : r ^ 2 ^ 233 = r :=
  pow_two_pow_of_root root_pow_two_pow r

theorem not_isRoot_fieldPoly (r : ZMod 2) : ¬ fieldPoly.IsRoot r := by
  rw [IsRoot, fieldPoly_eq]
  rcases (by decide : ∀ r : ZMod 2, r = 0 ∨ r = 1) r with rfl | rfl
  · simp
  · simp
    decide

theorem irreducible_fieldPoly : Irreducible fieldPoly :=
  irreducible_of_natDegree_prime (by norm_num) natDegree_fieldPoly not_isRoot_fieldPoly
    root_pow_two_pow

/-- The residues form a domain (R72). -/
theorem isDomain_residue : IsDomain Residue :=
  AdjoinRoot.isDomain_of_prime irreducible_fieldPoly.prime

end Sys2Proof
end

section
/-! Proofs about the field functions (40_field.md R56 to R60, R69, R71, R72): the statements on
`ClMul`, `Reduce`, `FSqr`, `FMul` and `FInv`, from the laws of the residues. -/

set_option autoImplicit false

namespace Sys2Proof

open Polynomial

/-! ### The product, bit by bit (R56) -/

/-- The pairs `(n - i, i)` with `i < m` whose bits are both set, counted. -/
def clMulPairs (a b : Elem) (n m : Nat) : Nat :=
  (List.range m).countP fun i => b.getLsbD i && decide (i ≤ n) && a.getLsbD (n - i)

theorem clMulPairs_succ (a b : Elem) (n m : Nat) :
    clMulPairs a b n (m + 1) =
      clMulPairs a b n m + (b.getLsbD m && decide (m ≤ n) && a.getLsbD (n - m)).toNat := by
  rw [clMulPairs, List.range_succ, List.countP_append, ← clMulPairs, List.countP_singleton]
  cases (b.getLsbD m && decide (m ≤ n) && a.getLsbD (n - m)) <;> rfl

theorem getLsbD_clMulUpTo (a b : Elem) {n : Nat} (hn : n < 479) (m : Nat) :
    (clMulUpTo a b m).getLsbD n = decide (clMulPairs a b n m % 2 = 1) := by
  induction m with
  | zero => simp [clMulUpTo, clMulPairs]
  | succ m ih =>
    have hterm : (if b.getLsbD m then a.setWidth 479 <<< m else 0 : Product).getLsbD n =
        (b.getLsbD m && decide (m ≤ n) && a.getLsbD (n - m)) := by
      by_cases hm : m ≤ n
      · cases b.getLsbD m <;> simp [hn, hm]
      · cases b.getLsbD m <;> simp [hm, show n < m by omega]
    rw [clMulUpTo, BitVec.getLsbD_xor, ih, hterm, clMulPairs_succ]
    cases (b.getLsbD m && decide (m ≤ n) && a.getLsbD (n - m)) with
    | false => simp
    | true =>
      rw [Bool.toNat_true]
      grind

/-- Settles O7: the bits by induction on the terms summed, the laws in GF(2)[X]. -/
theorem carrylessProductBits : Obligations.CarrylessProductBits := by
  intro a b
  refine ⟨fun n hn => getLsbD_clMulUpTo a b hn 240, toPoly_injective ?_, toPoly_injective ?_,
    toPoly_injective ?_⟩
  · rw [toPoly_clMul, toPoly_clMul, mul_comm]
  · rw [toPoly_clMul, toPoly_one, mul_one, toPoly_setWidth]
    exact fun i hi => BitVec.getLsbD_of_ge a i (by omega)
  · rw [toPoly_clMul]
    simp

/-- Settles O8: value and remainder have one residue, so f divides their difference. -/
theorem reduceIsTheRemainder : Obligations.ReduceIsTheRemainder := by
  refine ⟨fun w c => ⟨canonical_reduce c, ?_⟩, fun a => reduce_eq_self⟩
  obtain ⟨q, hq⟩ := AdjoinRoot.mk_eq_mk.1 (residue_reduce c).symm
  refine ⟨q, ?_⟩
  rw [← fieldPoly_eq, mul_comm, ← hq]
  exact (sub_add_cancel _ _).symm

theorem fSqr_eq_fMul (a : Elem) : fSqr a = fMul a a := by rw [fSqr, spread_eq_clMul, fMul]

/-- Settles O9: spreading is squaring in GF(2)[X]. -/
theorem squareIsTheProductWithItself : Obligations.SquareIsTheProductWithItself := by
  intro a
  refine ⟨fun i _ => ⟨?_, ?_⟩, spread_eq_clMul a, rfl, fSqr_eq_fMul a⟩
  · simp [getLsbD_spread]
  · rw [getLsbD_spread, decide_eq_false (by omega), Bool.false_and]

/-! ### Ring laws of the residues -/

theorem fMul_comm (a b : Elem) : fMul a b = fMul b a :=
  eq_of_residue_eq (canonical_fMul _ _) (canonical_fMul _ _) (by simp [mul_comm])

theorem fMul_one (a : Elem) : fMul a 1 = reduce a :=
  eq_of_residue_eq (canonical_fMul _ _) (canonical_reduce _) (by simp)

theorem fMul_zero (a : Elem) : fMul a 0 = 0 :=
  eq_of_residue_eq (canonical_fMul _ _) (by decide) (by simp)

theorem fMul_eq_zero_iff (a b : Elem) : fMul a b = 0 ↔ reduce a = 0 ∨ reduce b = 0 := by
  have := isDomain_residue
  rw [reduce_eq_zero_iff, reduce_eq_zero_iff, ← mul_eq_zero, ← residue_fMul, ← reduce_eq_zero_iff,
    reduce_eq_self (canonical_fMul a b)]

/-- Settles O10: both sides of each law are canonical with one residue. -/
theorem productIsFieldMultiplication : Obligations.ProductIsFieldMultiplication := by
  intro a b c
  refine ⟨rfl, canonical_fMul a b, ?_, fMul_comm a b, ?_, ?_, fMul_one a, fMul_zero a⟩
  · exact eq_of_residue_eq (canonical_fMul _ _) (canonical_fMul _ _) (by simp)
  · exact eq_of_residue_eq (canonical_fMul _ _) (canonical_fMul _ _) (by simp [mul_assoc])
  · exact eq_of_residue_eq (canonical_fMul _ _)
      (canonical_xor (canonical_fMul _ _) (canonical_fMul _ _)) (by simp [residue_xor, mul_add])

/-- Settles O11: the quotient by an irreducible polynomial is a domain. -/
theorem productIsZeroOnlyWithAZeroFactor : Obligations.ProductIsZeroOnlyWithAZeroFactor :=
  fMul_eq_zero_iff

/-! ### The inverse (R60) -/

/-- Each round takes the power `e` to `2e + 1`, so one more factor makes it a power of two. -/
theorem residue_fInvLadder_mul (a : Elem) (n : Nat) :
    residue (fInvLadder a n) * residue a = residue a ^ 2 ^ (n + 1) := by
  induction n with
  | zero => simp [fInvLadder, sq]
  | succ n ih =>
    calc residue (fInvLadder a (n + 1)) * residue a
      _ = (residue (fInvLadder a n) * residue a) ^ 2 := by
        rw [fInvLadder, residue_fMul, residue_fSqr]
        ring
      _ = residue a ^ 2 ^ (n + 1 + 1) := by rw [ih, ← pow_mul, ← pow_succ]

theorem fInv_of_reduce_ne_zero {a : Elem} (h : reduce a ≠ 0) :
    fInv a = some (fSqr (fInvLadder a 231)) := if_neg h

theorem residue_mul_fInv {a v : Elem} (h : fInv a = some v) : residue a * residue v = 1 := by
  have := isDomain_residue
  have ha : reduce a ≠ 0 := (fInv_isSome a).1 (by rw [h]; rfl)
  rw [fInv_of_reduce_ne_zero ha, Option.some.injEq] at h
  refine mul_right_cancel₀ (mt (reduce_eq_zero_iff a).2 ha) ?_
  calc residue a * residue v * residue a
    _ = (residue (fInvLadder a 231) * residue a) ^ 2 := by
      rw [← h, residue_fSqr]
      ring
    _ = residue a ^ 2 ^ 233 := by
      rw [residue_fInvLadder_mul, ← pow_mul, ← pow_succ]
    _ = 1 * residue a := by rw [residue_pow_two_pow, one_mul]

theorem fMul_eq_one_iff (a b : Elem) : fMul a b = 1 ↔ residue a * residue b = 1 := by
  have hone : canonical 1#240 = true := by decide
  rw [← residue_fMul, ← residue_one]
  exact ⟨fun h => congrArg residue h, eq_of_residue_eq (canonical_fMul a b) hone⟩

/-- Settles O12: two inverses of one residue are equal. -/
theorem inverseIsTheUniqueInverse : Obligations.InverseIsTheUniqueInverse := by
  intro a
  refine ⟨by rw [← Option.not_isSome_iff_eq_none, fInv_isSome, not_not], fun ha => ?_⟩
  obtain ⟨v, hv⟩ := Option.isSome_iff_exists.1 ((fInv_isSome a).2 ha)
  have hcan := canonical_of_fInv hv
  have hinv := residue_mul_fInv hv
  refine ⟨v, hv, hcan, (fMul_eq_one_iff a v).2 hinv, fun c hc hac => ?_⟩
  have hac' := (fMul_eq_one_iff a c).1 hac
  exact eq_of_residue_eq hc hcan (left_inv_eq_right_inv ((mul_comm _ _).trans hac') hinv)

/-- Settles O13, from the closure of each function. -/
theorem canonicalOperandsGiveCanonicalResults :
    Obligations.CanonicalOperandsGiveCanonicalResults := by
  intro a b ha hb
  refine ⟨canonical_xor ha hb, canonical_fMul a b, canonical_fSqr a, fun h0 => ?_⟩
  obtain ⟨v, hv⟩ := Option.isSome_iff_exists.1 ((fInv_isSome a).2 (by rwa [reduce_eq_self ha]))
  exact ⟨v, hv, canonical_of_fInv hv⟩

end Sys2Proof
end

section
/-! Proofs about the field commands (40_field.md R61 to R67, R70): what each leaves in the state. -/

set_option autoImplicit false

namespace Sys2Proof

/-! ### The degree (R67) -/

theorem degree_zero : degree 0#240 = 0 := by
  rcases topBit_cases 0#240 240 with ⟨_, hbit, _⟩ | ⟨h, _⟩
  · simp at hbit
  · exact h

/-- The degree of a nonzero value is the index of its highest set bit. -/
theorem degree_of_ne_zero {a : Elem} (ha : a ≠ 0) : degree a < 240 ∧ a.getLsbD (degree a) = true ∧
    ∀ i < 240, degree a < i → a.getLsbD i = false := by
  rcases topBit_cases a 240 with h | ⟨_, h⟩
  · exact h
  · exact absurd (BitVec.eq_of_getLsbD_eq fun i hi => by simp [h i hi]) ha

theorem degree_le_of_canonical {a : Elem} (h : canonical a = true) : degree a ≤ 232 := by
  by_cases ha : a = 0
  · subst ha
    exact degree_zero.le.trans (by decide)
  · by_contra hlt
    obtain ⟨-, hbit, -⟩ := degree_of_ne_zero ha
    rw [(canonical_iff a).1 h _ (by omega)] at hbit
    cases hbit

theorem degree_lt (a : Elem) : degree a < 240 := by
  by_cases ha : a = 0
  · subst ha
    exact degree_zero.trans_lt (by decide)
  · exact (degree_of_ne_zero ha).1

namespace Machine

/-! ### What the end of a field command leaves -/

/-- K and the two other agents are untouched where only these fields change. -/
theorem State.keepsK_and_env_of_eq {s t : State} (h : t = { s with
      f := t.f, wrF := t.wrF, t := t.t, err := t.err, deg := t.deg, trace := t.trace,
      draws := t.draws }) : s.keepsK t ∧ s.keepsEnv t := by
  rw [h]
  exact ⟨State.keepsK_of rfl rfl, rfl, rfl, rfl, rfl⟩

section setF

variable (s : State) (n : FReg) (v : Elem)

@[simp] theorem State.freg_ok (m : FReg) : s.ok.freg m = s.freg m := rfl

@[simp] theorem State.freg_ok_setF : (s.setF n v).ok.freg n = v := s.freg_setF_self n v

@[simp] theorem State.fullF_ok_setF : (s.setF n v).ok.fullF n = true := s.fullF_setF_self n v

end setF

/-! ### The commands -/

/-- Settles O14: exclusive-or keeps canonical form, and a value cancels itself. -/
theorem faddResult : Obligations.FaddResult := by
  intro rd ra rb s
  refine ⟨opField_assemble .., _, rfl, State.freg_ok_setF .., State.fullF_ok_setF .., rfl, ?_, ?_,
    rfl, rfl, rfl, rfl, State.keepsF_set rfl rfl, State.keepsK_and_env_of_eq rfl⟩
  · rw [State.freg_ok_setF]
    exact canonical_xor
  · rintro rfl
    rw [State.freg_ok_setF, BitVec.xor_self]
    rfl

/-- Settles O15: the laws of the product, or the illegal command. -/
theorem fmulResult : Obligations.FmulResult := by
  intro rd ra rb s
  refine ⟨opField_assemble .., fun hne => ?_, fun h => congrArg Host.Outcome.next (if_pos h)⟩
  refine ⟨_, congrArg Host.Outcome.next (if_neg hne), State.freg_ok_setF .., ?_,
    State.fullF_ok_setF .., ?_, ?_, ?_, rfl, rfl, rfl, rfl, rfl, State.keepsF_set rfl rfl,
    State.keepsK_and_env_of_eq rfl⟩
  all_goals rw [State.freg_ok_setF]
  · exact canonical_fMul _ _
  · rintro rfl
    exact (fSqr_eq_fMul _).symm
  · rintro (h | h)
    · rw [h, fMul_comm, fMul_zero]
    · rw [h, fMul_zero]
  · intro h
    rw [h, fMul_one]

/-- Settles O16: the square is the product of the operand with itself. -/
theorem fsqrResult : Obligations.FsqrResult := by
  intro rd ra s
  refine ⟨opField_assemble .., _, rfl, State.freg_ok_setF .., ?_, ?_, State.fullF_ok_setF .., rfl,
    rfl, rfl, rfl, rfl, State.keepsF_set rfl rfl, State.keepsK_and_env_of_eq rfl⟩
  all_goals rw [State.freg_ok_setF]
  · exact fSqr_eq_fMul _
  · exact canonical_fSqr _

/-- Settles O17, by whether the operand has an inverse. -/
theorem finvResult : Obligations.FinvResult := by
  intro rd ra s
  refine ⟨opField_assemble .., _, rfl, ?_⟩
  have hsome := fInv_isSome (s.freg ra)
  cases hv : fInv (s.freg ra) with
  | none =>
    rw [hv] at hsome
    exact ⟨fun h => absurd (hsome.2 h) Bool.false_ne_true, fun _ => ⟨s.freg_setF_self rd _, rfl⟩,
      s.fullF_setFOpen_self rd none, rfl, rfl, rfl, rfl, State.keepsF_set rfl rfl,
      State.keepsK_and_env_of_eq rfl⟩
  | some v =>
    rw [hv] at hsome
    refine ⟨fun _ => ?_, fun h => absurd h (hsome.1 rfl), State.fullF_ok_setF .., rfl, rfl, rfl,
      rfl, State.keepsF_set rfl rfl, State.keepsK_and_env_of_eq rfl⟩
    rw [State.setFOpen_some, State.freg_ok_setF]
    exact ⟨rfl, canonical_of_fInv hv, rfl⟩

/-- Settles O18: both tests compare all the bits. -/
theorem fiszAndFeqResult : Obligations.FiszAndFeqResult := by
  intro ra rb s
  refine ⟨opField_assemble .., opField_assemble ..,
    ⟨_, rfl, ?_, rfl, rfl, rfl, rfl, State.keepsF_none rfl rfl, State.keepsK_and_env_of_eq rfl⟩,
    ⟨_, rfl, ?_, ?_, rfl, rfl, rfl, rfl, State.keepsF_none rfl rfl,
      State.keepsK_and_env_of_eq rfl⟩⟩
  · rw [State.ok_t, State.setT_t, isZeroFlag, beq_iff_eq, BitVec.eq_of_getLsbD_eq_iff]
    simp
  · rw [State.ok_t, State.setT_t, isEqualFlag, beq_iff_eq, BitVec.eq_of_getLsbD_eq_iff]
  · rintro rfl
    exact beq_self_eq_true _

/-- Settles O19: a bit index fits in DEG. -/
theorem fdegResult : Obligations.FdegResult := by
  intro ra s
  have hdeg : (BitVec.ofNat 8 (degree (s.freg ra))).toNat = degree (s.freg ra) := by
    rw [BitVec.toNat_ofNat, Nat.mod_eq_of_lt ((degree_lt _).trans (by decide))]
  refine ⟨opField_assemble .., _, rfl, ?_, ?_, ?_, rfl, rfl, rfl, State.keepsF_none rfl rfl,
    State.keepsK_and_env_of_eq rfl⟩
  all_goals
    simp only [State.ok_t, State.setT_t, State.ok_deg, State.setT_deg, State.setDeg_deg, hdeg]
  · intro hne
    exact ⟨beq_false_of_ne hne, (degree_of_ne_zero hne).2⟩
  · intro h0
    rw [h0]
    exact ⟨rfl, congrArg (BitVec.ofNat 8) degree_zero⟩
  · exact degree_le_of_canonical

/-- Settles O20: a value cancels itself; the second FADD still reads the old Fb, as rd ≠ rb. -/
theorem addingTwiceCancels : Obligations.AddingTwiceCancels := by
  intro rd ra rb s
  refine ⟨⟨_, rfl, ?_⟩, fun hne => ⟨_, _, rfl, rfl, ?_⟩⟩
  · rw [State.freg_ok_setF, BitVec.xor_self]
    rfl
  · simp [State.freg_setF_ne _ hne]

end Machine
end Sys2Proof
end

section
/-! Proofs about the point functions (41_point.md R74 to R78, R134): the value and the events of
PointDouble, PointAdd and PointValid, case by case. -/

set_option autoImplicit false

namespace Sys2Proof

theorem Point.eq_iff {p q : Point} : p = q ↔ p.x = q.x ∧ p.y = q.y := by
  cases p
  cases q
  exact Point.mk.injEq .. ▸ Iff.rfl

theorem pointIsZero_iff {p : Point} : pointIsZero p = true ↔ p = inf := by
  rw [pointIsZero, Bool.and_eq_true, beq_iff_eq, beq_iff_eq, Point.eq_iff]
  rfl

theorem pointIsZero_of_ne_inf {p : Point} (h : p ≠ inf) : pointIsZero p = false :=
  Bool.eq_false_iff.2 (mt pointIsZero_iff.1 h)

theorem exists_fInv {a : Elem} (h : reduce a ≠ 0) : ∃ v, fInv a = some v :=
  Option.isSome_iff_exists.1 ((fInv_isSome a).2 h)

theorem fInv_eq_none {a : Elem} (h : reduce a = 0) : fInv a = none := if_pos h

section
variable {p q : Point}

theorem pointDouble_of_y_eq_zero (hy : p.y = 0) :
    pointDouble p = some inf ∧ doubleEvents p = [] :=
  ⟨if_pos hy, if_pos hy⟩

theorem pointDouble_of_x_congr_zero (hy : p.y ≠ 0) (hx : reduce p.x = 0) :
    pointDouble p = none ∧ doubleEvents p = [.inv] := by
  rw [pointDouble, doubleEvents, if_neg hy, if_neg hy, if_pos hx, fInv_eq_none hx]
  exact ⟨rfl, rfl⟩

theorem pointDouble_of_fInv {xi : Elem} (hy : p.y ≠ 0) (hxi : fInv p.x = some xi) :
    pointDouble p = some (doubleFormula p xi) ∧
      doubleEvents p = [.inv, .mul, .sqr, .sqr, .mul] := by
  have hx : reduce p.x ≠ 0 := (fInv_isSome p.x).1 (by rw [hxi]; rfl)
  rw [pointDouble, doubleEvents, if_neg hy, if_neg hy, if_neg hx, hxi]
  exact ⟨rfl, rfl⟩

theorem pointAdd_of_right_eq_inf (hq : q = inf) :
    pointAdd p q = some p ∧ addEvents p q = [] := by
  rw [hq]
  exact ⟨rfl, rfl⟩

theorem pointAdd_of_left_eq_inf (hp : p = inf) :
    pointAdd p q = some q ∧ addEvents p q = [] := by
  by_cases hq : q = inf
  · rw [hp, hq]
    exact ⟨rfl, rfl⟩
  · rw [hp, pointAdd, addEvents, pointIsZero_of_ne_inf hq]
    exact ⟨rfl, rfl⟩

/-- Equal pairs are doubled; `INF` among them, whose double is `INF`. -/
theorem pointAdd_of_eq (h : p = q) :
    pointAdd p q = pointDouble p ∧ addEvents p q = doubleEvents p := by
  subst h
  by_cases hp : p = inf
  · rw [hp]
    exact ⟨rfl, rfl⟩
  · simp [pointAdd, addEvents, pointIsZero_of_ne_inf hp]

theorem pointAdd_of_x_eq (hq : q ≠ inf) (hp : p ≠ inf) (hne : p ≠ q) (hx : p.x = q.x) :
    pointAdd p q = some inf ∧ addEvents p q = [] := by
  have hy : p.y ≠ q.y := fun hy => hne (Point.eq_iff.2 ⟨hx, hy⟩)
  simp [pointAdd, addEvents, pointIsZero_of_ne_inf, hp, hq, hx, hy]

theorem pointAdd_of_x_congr (hq : q ≠ inf) (hp : p ≠ inf) (hx : p.x ≠ q.x)
    (hd : reduce (p.x ^^^ q.x) = 0) : pointAdd p q = none ∧ addEvents p q = [.inv] := by
  simp [pointAdd, addEvents, pointIsZero_of_ne_inf, hp, hq, hx, hd, fInv_eq_none]

theorem pointAdd_of_fInv {di : Elem} (hq : q ≠ inf) (hp : p ≠ inf) (hx : p.x ≠ q.x)
    (hdi : fInv (p.x ^^^ q.x) = some di) :
    pointAdd p q = some (addFormula p q di) ∧ addEvents p q = [.inv, .mul, .sqr, .mul] := by
  have hd : reduce (p.x ^^^ q.x) ≠ 0 := (fInv_isSome _).1 (by rw [hdi]; rfl)
  simp [pointAdd, addEvents, pointIsZero_of_ne_inf, hp, hq, hx, hdi]
  exact hd

theorem isCanonical_iff_and :
    p.isCanonical ↔ (canonical p.x && canonical p.y) = true :=
  (Bool.and_eq_true_iff).symm

theorem validEvents_of_inf_or_not_canonical (h : p = inf ∨ ¬ p.isCanonical) :
    validEvents p = [] := by
  rw [← pointIsZero_iff, isCanonical_iff_and] at h
  rw [validEvents]
  split
  · rfl
  · rename_i h0
    exact if_neg (h.resolve_left h0)

theorem validEvents_of_isCanonical (h0 : p ≠ inf) (hc : p.isCanonical) :
    validEvents p = [.sqr, .mul, .sqr, .mul] := by
  rw [validEvents, if_neg (mt pointIsZero_iff.1 h0), if_pos (isCanonical_iff_and.1 hc)]

end

end Sys2Proof
end

section
/-! Proofs about the point functions (41_point.md R83, R85, R86): the curve over the residues, the
points of small order, and that doubling and addition stay on the curve. -/

set_option autoImplicit false

namespace Sys2Proof

/-! ### The curve y² + xy = x³ + 1 over a ring of characteristic 2 (R76) -/

section
variable {R : Type*} [CommRing R]

/-- The curve equation of R76. -/
def IsCurvePoint (x y : R) : Prop := y ^ 2 + x * y = x ^ 3 + 1

variable [CharP R 2]

/-- The opposite of a curve point is on the curve. -/
theorem IsCurvePoint.neg {x y : R} (h : IsCurvePoint x y) : IsCurvePoint x (y + x) := by
  unfold IsCurvePoint at *
  grind

/-- The tangent formula, d the inverse of x (R74): as y = x (l + x), the equation of the point says
x² (l² + l) + x⁴ = 1. -/
theorem IsCurvePoint.double {x y d l : R} (hd : x * d = 1) (hl : l = x + y * d)
    (h : IsCurvePoint x y) :
    IsCurvePoint (l ^ 2 + l) (x ^ 2 + l * (l ^ 2 + l) + (l ^ 2 + l)) := by
  unfold IsCurvePoint at *
  have hy : y = x * (l + x) := by grind
  have hx : x ^ 2 * (l ^ 2 + l) + x ^ 4 = 1 := by grind
  grind

/-- The third point of the curve on the line y = l x + m through two others. The sum of the two
equations has the factor x₁ + x₂; without it, it gives m. -/
theorem IsCurvePoint.third {x₁ x₂ d l m : R} (hd : (x₁ + x₂) * d = 1)
    (h₁ : IsCurvePoint x₁ (l * x₁ + m)) (h₂ : IsCurvePoint x₂ (l * x₂ + m)) :
    IsCurvePoint (l ^ 2 + l + x₁ + x₂) (l * (l ^ 2 + l + x₁ + x₂) + m) := by
  unfold IsCurvePoint at *
  have hm : m = x₁ ^ 2 + x₁ * x₂ + x₂ ^ 2 + (l ^ 2 + l) * (x₁ + x₂) := by grind
  grind

/-- The chord formula, d the inverse of x₁ + x₂ (R75): the opposite of the third point. -/
theorem IsCurvePoint.add {x₁ y₁ x₂ y₂ d l : R} (hd : (x₁ + x₂) * d = 1) (hl : l = (y₁ + y₂) * d)
    (h₁ : IsCurvePoint x₁ y₁) (h₂ : IsCurvePoint x₂ y₂) :
    IsCurvePoint (l ^ 2 + l + x₁ + x₂)
      (l * (x₁ + (l ^ 2 + l + x₁ + x₂)) + y₁ + (l ^ 2 + l + x₁ + x₂)) := by
  have hy₁ : y₁ = l * x₁ + (y₁ + l * x₁) := by grind
  have hy₂ : y₂ = l * x₂ + (y₁ + l * x₁) := by grind
  convert (third hd (hy₁ ▸ h₁) (hy₂ ▸ h₂)).neg using 1
  ring

end

/-! ### The curve over the residues, and valid pairs (R76) -/

theorem charP_residue : CharP Residue 2 :=
  have := isDomain_residue
  charP_of_injective_algebraMap (algebraMap (ZMod 2) Residue).injective 2

/-- The pair satisfies the curve equation in the field of the residues. -/
def Point.OnCurve (p : Point) : Prop := IsCurvePoint (residue p.x) (residue p.y)

theorem onCurve_iff {p : Point} : onCurve p = true ↔ p.OnCurve := by
  have hone : canonical 1#240 = true := by decide
  have hsum : residue (fSqr p.y ^^^ fMul p.x p.y) =
      residue p.y ^ 2 + residue p.x * residue p.y := by
    simp [residue_xor]
  have hcube : residue (fMul (fSqr p.x) p.x ^^^ 1) = residue p.x ^ 3 + 1 := by
    simp [residue_xor, pow_succ]
  rw [onCurve, beq_iff_eq, Point.OnCurve, IsCurvePoint, ← hsum, ← hcube]
  exact ⟨fun h => congrArg residue h,
    eq_of_residue_eq (canonical_xor (canonical_fSqr _) (canonical_fMul _ _))
      (canonical_xor (canonical_fMul _ _) hone)⟩

theorem pointValid_iff {p : Point} :
    pointValid p = true ↔ p = inf ∨ (p.isCanonical ∧ p.OnCurve) := by
  rw [pointValid, Bool.or_eq_true, Bool.and_eq_true, Bool.and_eq_true, pointIsZero_iff,
    onCurve_iff, Point.isCanonical]

theorem pointValid_inf : pointValid inf = true := rfl

section
variable {p q : Point}

theorem onCurve_of_pointValid (hp : pointValid p = true) (h : p ≠ inf) : p.OnCurve := by
  obtain h' | ⟨-, h'⟩ := pointValid_iff.1 hp
  · exact absurd h' h
  · exact h'

theorem Point.OnCurve.doubleFormula {xi : Elem} (hp : p.OnCurve) (hxi : fInv p.x = some xi) :
    (doubleFormula p xi).OnCurve := by
  have := charP_residue
  simp only [Point.OnCurve, Sys2Proof.doubleFormula, residue_xor, residue_fMul, residue_fSqr]
  exact IsCurvePoint.double (residue_mul_fInv hxi) rfl hp

theorem Point.OnCurve.addFormula {di : Elem} (hp : p.OnCurve) (hq : q.OnCurve)
    (hdi : fInv (p.x ^^^ q.x) = some di) : (addFormula p q di).OnCurve := by
  have := charP_residue
  have hinv := residue_mul_fInv hdi
  rw [residue_xor] at hinv
  simp only [Point.OnCurve, Sys2Proof.addFormula, residue_xor, residue_fMul, residue_fSqr]
  exact IsCurvePoint.add hinv rfl hp hq

/-! ### The points of small order (R85) -/

/-- At x = 0 the equation is y² = 1, which has one root in characteristic 2. -/
theorem eq_of_pointValid_of_x_eq_zero (hp : pointValid p = true) (hx : p.x = 0) :
    p = inf ∨ p = ⟨0, 1⟩ := by
  have := isDomain_residue
  have := charP_residue
  refine (pointValid_iff.1 hp).imp_right fun ⟨⟨_, hcan⟩, hcurve⟩ => Point.eq_iff.2 ⟨hx, ?_⟩
  apply eq_of_residue_eq hcan (by decide)
  apply CharTwo.sq_injective
  simpa [Point.OnCurve, IsCurvePoint, hx] using hcurve

/-- A cube root of unity is 1: it is its own 2^233-th power, and 2^233 mod 3 = 2. -/
theorem residue_eq_one_of_cube {r : Residue} (h : r ^ 3 = 1) : r = 1 := by
  have hsq : r = r ^ 2 :=
    calc r = r ^ 2 ^ 233 := (residue_pow_two_pow r).symm
      _ = r ^ (2 ^ 233 % 3) := pow_eq_pow_mod _ h
      _ = r ^ 2 := by norm_num
  calc r = r ^ 2 := hsq
    _ = r * r := sq r
    _ = r * r ^ 2 := by rw [← hsq]
    _ = 1 := by rw [← pow_succ', h]

/-- At y = 0 the equation is x³ = 1. -/
theorem eq_of_pointValid_of_y_eq_zero (hp : pointValid p = true) (hy : p.y = 0) :
    p = inf ∨ p = ⟨1, 0⟩ := by
  have := charP_residue
  refine (pointValid_iff.1 hp).imp_right fun ⟨⟨hcan, _⟩, hcurve⟩ => Point.eq_iff.2 ⟨?_, hy⟩
  apply eq_of_residue_eq hcan (by decide)
  have hcube : residue p.x ^ 3 + 1 = 0 := by
    simpa [Point.OnCurve, IsCurvePoint, hy, eq_comm] using hcurve
  exact (residue_eq_one_of_cube (CharTwo.add_eq_zero.1 hcube)).trans residue_one.symm

/-- Points whose x coordinates differ by 1 are added with the inverse of 1. -/
theorem pointAdd_of_xor_eq_one (hq : q ≠ inf) (hp : p ≠ inf) (h : p.x ^^^ q.x = 1) :
    pointAdd p q = some (addFormula p q 1) := by
  have hne : p.x ≠ q.x := by
    intro he
    rw [he, BitVec.xor_self] at h
    exact absurd h (by decide)
  exact (pointAdd_of_fInv hq hp hne (by rw [h]; exact fInv_one)).1

theorem pointDouble_one_one : pointDouble ⟨1, 1⟩ = some ⟨0, 1⟩ := by
  rw [(pointDouble_of_fInv (p := ⟨1, 1⟩) (by decide) fInv_one).1]
  decide +kernel

theorem pointDouble_zero_one : pointDouble ⟨0, 1⟩ = none := by decide +kernel

theorem pointAdd_opposite : pointAdd ⟨1, 0⟩ ⟨1, 1⟩ = some inf :=
  (pointAdd_of_x_eq (p := ⟨1, 0⟩) (q := ⟨1, 1⟩) (by decide) (by decide) (by decide) rfl).1

/-- Settles O26: the curve equation at x = 0 and at y = 0, and the formulas with the inverse
of 1. -/
theorem smallOrderPoints : Obligations.SmallOrderPoints := by
  refine ⟨fun p => eq_of_pointValid_of_x_eq_zero, fun p => eq_of_pointValid_of_y_eq_zero,
    by decide +kernel, by decide +kernel, by decide +kernel, pointDouble_one_one,
    (pointDouble_of_y_eq_zero rfl).1, pointDouble_zero_one, ?_, ?_,
    pointAdd_opposite, ?_, ?_⟩
  all_goals
    rw [pointAdd_of_xor_eq_one (by decide) (by decide) (by decide)]
    decide +kernel

/-! ### Doubling and addition stay on the curve (R83, R86) -/

/-- Every valid point but (0, 1) has a double, and the double is valid. -/
theorem exists_pointDouble (hp : pointValid p = true) (h01 : p ≠ ⟨0, 1⟩) :
    ∃ r, pointDouble p = some r ∧ pointValid r = true := by
  by_cases hy : p.y = 0
  · exact ⟨inf, (pointDouble_of_y_eq_zero hy).1, pointValid_inf⟩
  have hinf : p ≠ inf := fun h => hy (by rw [h]; rfl)
  have hcan := isCanonical_of_pointValid hp
  have hx : reduce p.x ≠ 0 := by
    obtain ⟨hcx, -⟩ := hcan
    rw [reduce_eq_self hcx]
    intro hx
    exact (eq_of_pointValid_of_x_eq_zero hp hx).elim hinf h01
  obtain ⟨xi, hxi⟩ := exists_fInv hx
  exact ⟨_, (pointDouble_of_fInv hy hxi).1, pointValid_iff.2 (.inr
    ⟨isCanonical_doubleFormula hcan xi, (onCurve_of_pointValid hp hinf).doubleFormula hxi⟩)⟩

/-- Two valid points that differ have a sum, and the sum is valid. -/
theorem exists_pointAdd (hp : pointValid p = true) (hq : pointValid q = true) (hne : p ≠ q) :
    ∃ r, pointAdd p q = some r ∧ pointValid r = true := by
  by_cases hq0 : q = inf
  · exact ⟨p, (pointAdd_of_right_eq_inf hq0).1, hp⟩
  by_cases hp0 : p = inf
  · exact ⟨q, (pointAdd_of_left_eq_inf hp0).1, hq⟩
  by_cases hx : p.x = q.x
  · exact ⟨inf, (pointAdd_of_x_eq hq0 hp0 hne hx).1, pointValid_inf⟩
  have hcp := isCanonical_of_pointValid hp
  have hcq := isCanonical_of_pointValid hq
  have hd : reduce (p.x ^^^ q.x) ≠ 0 := by
    obtain ⟨hpx, -⟩ := hcp
    obtain ⟨hqx, -⟩ := hcq
    rw [reduce_eq_self (canonical_xor hpx hqx)]
    exact mt BitVec.xor_eq_zero_iff.1 hx
  obtain ⟨di, hdi⟩ := exists_fInv hd
  exact ⟨_, (pointAdd_of_fInv hq0 hp0 hx hdi).1, pointValid_iff.2 (.inr
    ⟨isCanonical_addFormula hcp hcq di,
      (onCurve_of_pointValid hp hp0).addFormula (onCurve_of_pointValid hq hq0) hdi⟩)⟩

theorem pointDouble_eq_none_iff (hp : pointValid p = true) :
    pointDouble p = none ↔ p = ⟨0, 1⟩ := by
  refine ⟨fun h => ?_, fun h => h ▸ pointDouble_zero_one⟩
  by_contra h01
  obtain ⟨r, hr, -⟩ := exists_pointDouble hp h01
  rw [h] at hr
  cases hr

theorem pointValid_of_pointDouble {r : Point} (hp : pointValid p = true)
    (h : pointDouble p = some r) : pointValid r = true := by
  have h01 : p ≠ ⟨0, 1⟩ := mt (pointDouble_eq_none_iff hp).2 (by rw [h]; nofun)
  obtain ⟨r', hr', hvalid⟩ := exists_pointDouble hp h01
  rw [hr', Option.some.injEq] at h
  exact h ▸ hvalid

theorem pointValid_of_pointAdd {r : Point} (hp : pointValid p = true) (hq : pointValid q = true)
    (h : pointAdd p q = some r) : pointValid r = true := by
  by_cases heq : p = q
  · exact pointValid_of_pointDouble hp ((pointAdd_of_eq heq).1 ▸ h)
  · obtain ⟨r', hr', hvalid⟩ := exists_pointAdd hp hq heq
    rw [hr', Option.some.injEq] at h
    exact h ▸ hvalid

theorem pointAdd_eq_none_iff (hp : pointValid p = true) (hq : pointValid q = true) :
    pointAdd p q = none ↔ p = ⟨0, 1⟩ ∧ q = ⟨0, 1⟩ := by
  by_cases heq : p = q
  · rw [(pointAdd_of_eq heq).1, pointDouble_eq_none_iff hp, ← heq, and_self]
  · obtain ⟨r, hr, -⟩ := exists_pointAdd hp hq heq
    rw [hr]
    exact iff_of_false nofun fun ⟨hp01, hq01⟩ => heq (hp01.trans hq01.symm)

end

/-- Settles O25, by the cases of doubling and addition. -/
theorem pointFunctionsStayOnTheCurve : Obligations.PointFunctionsStayOnTheCurve :=
  fun _ _ hp hq => ⟨fun _ => pointValid_of_pointDouble hp, fun _ => pointValid_of_pointAdd hp hq,
    pointDouble_eq_none_iff hp, pointAdd_eq_none_iff hp hq⟩

end Sys2Proof
end

section
/-! Proofs about the point commands (41_point.md R79 to R82, R84): what each leaves in the state. -/

set_option autoImplicit false

namespace Sys2Proof.Machine

/-! ### What the end of a run leaves -/

section endRun

variable (s : State) (k : PReg) (r : PointRun)

@[simp] theorem State.preg_ok_endRun : (s.endRun k r).ok.preg k = r.value := s.preg_endRun_self k r

@[simp] theorem State.fullP_ok_endRun : (s.endRun k r).ok.fullP k = true := s.fullP_endRun_self k r

/-- The frame of a command that ends a run: outside its pair, ERR, the trace and the draw counter
nothing changes. -/
theorem State.endRun_ok_keeps : s.keepsF [xReg k, yReg k] (s.endRun k r).ok ∧
    s.keepsK (s.endRun k r).ok ∧ s.keepsEnv (s.endRun k r).ok :=
  ⟨State.keepsF_pair rfl rfl, State.keepsK_and_env_of_eq rfl⟩

variable {r} {es : List Event}

/-- A run with a value leaves it in the pair, and has drawn nothing since its last operation. -/
theorem State.endRun_ok_of_some {p : Point} (hacc : r.acc = some p) (hev : r.events = es) :
    (s.endRun k r).ok.preg k = p ∧ (s.endRun k r).ok.trace = s.trace ++ es ∧
      (s.endRun k r).ok.draws = r.draws := by
  obtain ⟨hvalue, hdrawn⟩ := PointRun.value_of_some hacc
  exact ⟨(s.preg_ok_endRun k r).trans hvalue, congrArg (s.trace ++ ·) hev, hdrawn⟩

/-- A run without a value leaves the next two draws (assumption 2). -/
theorem State.endRun_ok_of_none (hacc : r.acc = none) (hev : r.events = es) :
    (s.endRun k r).ok.preg k = unspecifiedPoint r.draws ∧
      (s.endRun k r).ok.trace = s.trace ++ es ∧
      (s.endRun k r).ok.draws = r.draws + 2 := by
  obtain ⟨hvalue, hdrawn⟩ := PointRun.value_of_none hacc
  exact ⟨(s.preg_ok_endRun k r).trans hvalue, congrArg (s.trace ++ ·) hev, hdrawn⟩

end endRun

/-! ### PDBL and PADD -/

section

variable {s : State} {p q : Point}

/-- The accumulator and the events of the run of PDBL (R79). -/
theorem State.startRun_double {v : Option Point} {es : List Event}
    (h : pointDouble p = v ∧ doubleEvents p = es) :
    (s.startRun p).double.acc = v ∧ (s.startRun p).double.events = .dbl :: es :=
  ⟨h.1, congrArg (Event.dbl :: ·) h.2⟩

/-- The accumulator and the events of the run of PADD (R80). -/
theorem State.startRun_add {v : Option Point} {es : List Event}
    (h : pointAdd p q = v ∧ addEvents p q = es) :
    ((s.startRun p).add q).acc = v ∧ ((s.startRun p).add q).events = .add :: es :=
  ⟨h.1, congrArg (Event.add :: ·) h.2⟩

end

/-- Settles O21, by the three cases of PointDouble. -/
theorem pdblResult : Obligations.PdblResult := by
  intro rd s
  obtain ⟨hF, hK, hEnv⟩ := s.endRun_ok_keeps rd (s.startRun (s.preg rd)).double
  refine ⟨opField_assemble .., _, rfl, rfl, rfl, rfl, s.fullP_ok_endRun rd _, hF, hK, hEnv,
    fun hy => ?_, fun hy hx => ?_, fun hy hx => ?_⟩
  · obtain ⟨hacc, hev⟩ := State.startRun_double (s := s) (pointDouble_of_y_eq_zero hy)
    exact s.endRun_ok_of_some rd hacc hev
  · obtain ⟨hacc, hev⟩ := State.startRun_double (s := s) (pointDouble_of_x_congr_zero hy hx)
    exact s.endRun_ok_of_none rd hacc hev
  · obtain ⟨xi, hxi⟩ := exists_fInv hx
    obtain ⟨hacc, hev⟩ := State.startRun_double (s := s) (pointDouble_of_fInv hy hxi)
    exact ⟨xi, _, _, hxi, rfl, rfl, s.endRun_ok_of_some rd hacc hev⟩

/-- Settles O22, by the six cases of PointAdd. -/
theorem paddResult : Obligations.PaddResult := by
  intro rd ra s
  obtain ⟨hF, hK, hEnv⟩ := s.endRun_ok_keeps rd ((s.startRun (s.preg rd)).add (s.preg ra))
  refine ⟨opField_assemble .., _, rfl, rfl, rfl, rfl, s.fullP_ok_endRun rd _, hF, hK, hEnv, ?_⟩
  intro p q
  refine ⟨fun hq => ?_, fun _ hp => ?_, fun _ _ hpq => ?_, fun hq hp hne hx => ?_,
    fun hq hp hx hd => ?_, fun hq hp hx hd => ?_⟩
  · obtain ⟨hacc, hev⟩ := State.startRun_add (s := s) (pointAdd_of_right_eq_inf hq)
    exact s.endRun_ok_of_some rd hacc hev
  · obtain ⟨hacc, hev⟩ := State.startRun_add (s := s) (pointAdd_of_left_eq_inf hp)
    exact s.endRun_ok_of_some rd hacc hev
  · obtain ⟨hacc, hev⟩ := State.startRun_add (s := s) (pointAdd_of_eq hpq)
    refine ⟨congrArg (s.trace ++ ·) hev, fun r hr => ?_, fun hr => ?_⟩
    · obtain ⟨hP, -, hD⟩ := s.endRun_ok_of_some rd (hacc.trans hr) hev
      exact ⟨hP, hD⟩
    · obtain ⟨hP, -, hD⟩ := s.endRun_ok_of_none rd (hacc.trans hr) hev
      exact ⟨hP, hD⟩
  · obtain ⟨hacc, hev⟩ := State.startRun_add (s := s) (pointAdd_of_x_eq hq hp hne hx)
    exact s.endRun_ok_of_some rd hacc hev
  · obtain ⟨hacc, hev⟩ := State.startRun_add (s := s) (pointAdd_of_x_congr hq hp hx hd)
    exact s.endRun_ok_of_none rd hacc hev
  · obtain ⟨di, hdi⟩ := exists_fInv hd
    obtain ⟨hacc, hev⟩ := State.startRun_add (s := s) (pointAdd_of_fInv hq hp hx hdi)
    exact ⟨di, _, _, hdi, rfl, rfl, s.endRun_ok_of_some rd hacc hev⟩

/-- Settles O24: `INF` is neutral on both sides, and equal pairs make the two runs end alike. -/
theorem groupIdentityAndDoublingConsistency : Obligations.GroupIdentityAndDoublingConsistency := by
  intro rd ra s
  refine ⟨fun ha => ⟨_, rfl, ?_⟩, fun hd => ⟨_, rfl, ?_⟩, fun heq => ⟨_, _, rfl, rfl, fun _ => ?_⟩⟩
  · obtain ⟨hacc, hev⟩ := State.startRun_add (s := s) (pointAdd_of_right_eq_inf ha)
    exact (s.endRun_ok_of_some rd hacc hev).1
  · obtain ⟨hacc, hev⟩ := State.startRun_add (s := s) (pointAdd_of_left_eq_inf hd)
    exact (s.endRun_ok_of_some rd hacc hev).1
  · have hacc := (State.startRun_add (s := s) (pointAdd_of_eq heq.symm)).1
    rw [State.preg_ok_endRun, State.preg_ok_endRun, PointRun.value, hacc]
    rfl

/-! ### PVAL and PISZ -/

/-- Settles O23, by the cases of PointValid: `INF`, degree overflow, and the curve equation. -/
theorem pvalAndPiszResult : Obligations.PvalAndPiszResult := by
  intro ra s
  refine ⟨opField_assemble .., opField_assemble .., ?_⟩
  intro p reduced
  have hred : p.isCanonical ↔ reduced := and_congr beq_iff_eq beq_iff_eq
  refine ⟨⟨_, rfl, ?_, fun h => ?_, fun h0 hr => ?_, rfl, rfl, rfl, State.keepsF_none rfl rfl,
    State.keepsK_and_env_of_eq rfl⟩, ⟨_, rfl, pointIsZero_iff, rfl, rfl, rfl, rfl,
    State.keepsF_none rfl rfl, State.keepsK_and_env_of_eq rfl⟩⟩
  · rw [State.ok_t, State.setT_t, pointValid, Bool.or_eq_true, Bool.and_eq_true,
      ← isCanonical_iff_and, hred, pointIsZero_iff, onCurve, beq_iff_eq]
  · rw [← hred] at h
    exact (congrArg (s.trace ++ ·) (validEvents_of_inf_or_not_canonical h)).trans
      (List.append_nil _)
  · exact congrArg (s.trace ++ ·) (validEvents_of_isCanonical h0 (hred.2 hr))

end Sys2Proof.Machine
end

section
/-! Proofs about the scalar multiplier (41_point.md R83, 42_scalar.md R93, 43_ecdh.md R100): the
curve invariant of a run of the point engine. -/

set_option autoImplicit false

namespace Sys2Proof.Machine

/-- The accumulator, where it is specified, is a valid point. -/
def PointRun.Valid (r : PointRun) : Prop := ∀ p, r.acc = some p → pointValid p = true

section
variable {r : PointRun} {p : Point}

theorem PointRun.valid_of_acc (hacc : r.acc = some p) (hp : pointValid p = true) : r.Valid :=
  fun _ hq => Option.some.inj (hacc.symm.trans hq) ▸ hp

theorem PointRun.Valid.double (hr : r.Valid) : r.double.Valid := by
  intro p hp
  obtain ⟨a, ha, hap⟩ := Option.bind_eq_some_iff.1 hp
  exact pointValid_of_pointDouble (hr a ha) hap

theorem PointRun.Valid.add (hr : r.Valid) {q : Point} (hq : pointValid q = true) :
    (r.add q).Valid := by
  intro p hp
  obtain ⟨a, ha, hap⟩ := Option.bind_eq_some_iff.1 hp
  exact pointValid_of_pointAdd (hr a ha) hq hap

theorem PointRun.Valid.scalarLoop (hr : r.Valid) (hp : pointValid p = true) (k : Elem) (n : Nat) :
    (scalarLoop p k n r).Valid := by
  induction n generalizing r with
  | zero => exact hr
  | succ i ih =>
    refine ih (hr.double.add ?_)
    split
    · exact hp
    · exact pointValid_inf

end

/-- Settles O33: the loop starts at `INF`, and each doubling and addition keeps validity. -/
theorem scalarMulOfAValidPointIsValid : Obligations.ScalarMulOfAValidPointIsValid := by
  intro p k bw hp
  have hrun : (scalarLoop p k bw ⟨some inf, [], 0⟩).Valid :=
    (PointRun.valid_of_acc rfl pointValid_inf).scalarLoop hp k bw
  exact ⟨hrun, hrun.double.double⟩

end Sys2Proof.Machine
end

section
/-! Proofs about the scalar multiplier (42_scalar.md R88 to R90, R93): the values of `ScalarMul`,
from its last iteration. -/

set_option autoImplicit false

namespace Sys2Proof.Machine

/-! ### The last iteration (R88) -/

section
variable {p a : Point} {k : Elem} {bw : Nat}

theorem scalarMul_zero (p : Point) (k : Elem) : scalarMul p k 0 = some inf := rfl

theorem scalarMul_succ (p : Point) (k : Elem) (bw : Nat) :
    scalarMul p k (bw + 1) =
      ((scalarMul p (k >>> 1) bw).bind pointDouble).bind fun a =>
        pointAdd a (if k.getLsbD 0 then p else inf) :=
  congrArg PointRun.acc (scalarLoop_succ_last p k bw _)

/-- Without a double the last iteration has no value. -/
theorem scalarMul_succ_eq_none (h : (scalarMul p (k >>> 1) bw).bind pointDouble = none) :
    scalarMul p k (bw + 1) = none := by
  rw [scalarMul_succ, h, Option.bind_none]

/-- Where the double is `INF`, the last iteration leaves what it adds. -/
theorem scalarMul_succ_of_double_inf (ha : scalarMul p (k >>> 1) bw = some a)
    (hd : pointDouble a = some inf) :
    scalarMul p k (bw + 1) = some (if k.getLsbD 0 then p else inf) := by
  rw [scalarMul_succ, ha, Option.bind_some, hd, Option.bind_some]
  exact (pointAdd_of_left_eq_inf rfl).1

end

theorem pointDouble_inf : pointDouble inf = some inf := (pointDouble_of_y_eq_zero rfl).1

theorem scalarMul_inf (k : Elem) (bw : Nat) : scalarMul inf k bw = some inf := by
  induction bw generalizing k with
  | zero => exact scalarMul_zero inf k
  | succ n ih => rw [scalarMul_succ_of_double_inf (ih _) pointDouble_inf, ite_self]

/-- Settles O28, by the last iteration of the loop. -/
theorem scalarMulIsDoubleAndAdd : Obligations.ScalarMulIsDoubleAndAdd :=
  fun p k bw => ⟨scalarMul_zero p k, scalarMul_succ p k bw⟩

/-! ### The bits looked at (R90) -/

/-- The last bw + 1 bits of a scalar: the last bw of its half, and its lowest. -/
theorem toNat_mod_two_pow_succ (k : Elem) (bw : Nat) :
    k.toNat % 2 ^ (bw + 1) = 2 * ((k >>> 1).toNat % 2 ^ bw) + (k.getLsbD 0).toNat := by
  have hbit : (k.getLsbD 0).toNat = k.toNat % 2 := by
    rw [BitVec.getLsbD, Nat.toNat_testBit, pow_zero, Nat.div_one]
  rw [pow_succ', Nat.mod_mul, hbit, BitVec.toNat_ushiftRight, Nat.shiftRight_one, Nat.add_comm]

/-- Settles O29, by induction on the width: equal residues have equal lowest bits and equal
halves. -/
theorem scalarMulIgnoresHighBits : Obligations.ScalarMulIgnoresHighBits := by
  intro p k k' bw h
  induction bw generalizing k k' with
  | zero => rfl
  | succ n ih =>
    rw [toNat_mod_two_pow_succ, toNat_mod_two_pow_succ] at h
    have hlt := Bool.toNat_lt (k.getLsbD 0)
    have hlt' := Bool.toNat_lt (k'.getLsbD 0)
    have hbit : k.getLsbD 0 = k'.getLsbD 0 :=
      Function.LeftInverse.injective Bool.ofNat_toNat (by omega)
    rw [scalarMul_succ, scalarMul_succ, hbit, ih (k >>> 1) (k' >>> 1) (by omega)]

/-! ### The points of small order (R93) -/

/-- Whatever was accumulated has y = 0, so every doubling gives `INF`. -/
theorem scalarMul_one_zero (k : Elem) (n : Nat) :
    scalarMul ⟨1, 0⟩ k (n + 1) = some (if k.getLsbD 0 then ⟨1, 0⟩ else inf) := by
  induction n generalizing k with
  | zero => exact scalarMul_succ_of_double_inf (scalarMul_zero _ _) pointDouble_inf
  | succ n ih =>
    refine scalarMul_succ_of_double_inf (ih _) (pointDouble_of_y_eq_zero ?_).1
    split <;> rfl

/-- The accumulator is `INF` until the first set bit and (0, 1) right after it; the next doubling has
no value. -/
theorem scalarMul_zero_one (k : Elem) (bw : Nat) :
    scalarMul ⟨0, 1⟩ k bw = if k.toNat % 2 ^ bw = 0 then some inf
      else if k.toNat % 2 ^ bw = 1 then some ⟨0, 1⟩ else none := by
  induction bw generalizing k with
  | zero => rw [pow_zero, Nat.mod_one, if_pos rfl, scalarMul_zero]
  | succ n ih =>
    specialize ih (k >>> 1)
    rw [toNat_mod_two_pow_succ]
    by_cases h0 : (k >>> 1).toNat % 2 ^ n = 0
    · rw [if_pos h0] at ih
      rw [h0, scalarMul_succ_of_double_inf ih pointDouble_inf]
      cases k.getLsbD 0 <;> rfl
    · rw [if_neg (by omega), if_neg (by omega)]
      apply scalarMul_succ_eq_none
      rw [ih, if_neg h0]
      split
      · exact pointDouble_zero_one
      · rfl

/-- The accumulators of 5 = 101₂ are (1, 1), then its double (0, 1), which has no double. -/
theorem scalarMul_one_one_five : scalarMul ⟨1, 1⟩ 5 3 = none := by
  have h1 : scalarMul ⟨1, 1⟩ 1 1 = some ⟨1, 1⟩ :=
    scalarMul_succ_of_double_inf (scalarMul_zero _ _) pointDouble_inf
  have h2 : scalarMul ⟨1, 1⟩ 2 2 = some ⟨0, 1⟩ := by
    rw [scalarMul_succ, show (2 : Elem) >>> 1 = 1 from rfl, h1, Option.bind_some,
      pointDouble_one_one, Option.bind_some]
    exact (pointAdd_of_right_eq_inf rfl).1
  apply scalarMul_succ_eq_none
  rw [show (5 : Elem) >>> 1 = 2 from rfl, h2, Option.bind_some, pointDouble_zero_one]

/-- Settles O32, point by point. -/
theorem scalarMultiplesOfSmallOrderPoints : Obligations.ScalarMultiplesOfSmallOrderPoints := by
  refine ⟨fun k bw hbw => ?_, fun k bw => ?_, scalarMul_one_one_five⟩
  · obtain ⟨n, rfl⟩ := Nat.exists_eq_add_of_le' hbw
    exact scalarMul_one_zero k n
  · rw [scalarMul_zero_one]
    refine ⟨fun h => if_pos h, fun h => ?_, fun h => ?_⟩
    · rw [h]
      rfl
    · rw [if_neg (by omega), if_neg (by omega)]

end Sys2Proof.Machine
end

section
/-! Proofs about the scalar multiplier (42_scalar.md R88, R89, 43_ecdh.md R98, R99): the state SMUL
leaves, and the events of the scalar multiplications of SMUL, KGEN and SSEC (R134). -/

set_option autoImplicit false

namespace Sys2Proof.Machine

/-! ### The draws of a run (assumption 2) -/

/-- A run that began at draw counter `d`: its counter never went back, and as long as its accumulator
is specified it has drawn nothing. -/
def PointRun.DrawsFrom (d : Nat) (r : PointRun) : Prop :=
  d ≤ r.draws ∧ ∀ p, r.acc = some p → r.draws = d

section
variable {d : Nat} {r r' : PointRun}

/-- One operation of the engine reads the accumulator once and cannot make it specified again. -/
theorem PointRun.DrawsFrom.next (hr : r.DrawsFrom d) (hdraws : r'.draws = r.drawn)
    (hacc : r.acc = none → r'.acc = none) : r'.DrawsFrom d := by
  obtain ⟨hle, hsome⟩ := hr
  rw [PointRun.DrawsFrom, hdraws]
  refine ⟨hle.trans r.draws_le_drawn, fun p hp => ?_⟩
  cases ha : r.acc with
  | none =>
    rw [hacc ha] at hp
    cases hp
  | some a => exact (PointRun.value_of_some ha).2.trans (hsome a ha)

theorem PointRun.DrawsFrom.double (hr : r.DrawsFrom d) : r.double.DrawsFrom d :=
  hr.next rfl fun h => by rw [double_acc, h, Option.bind_none]

theorem PointRun.DrawsFrom.add (hr : r.DrawsFrom d) (q : Point) : (r.add q).DrawsFrom d :=
  hr.next rfl fun h => by rw [add_acc, h, Option.bind_none]

theorem PointRun.DrawsFrom.scalarLoop (hr : r.DrawsFrom d) (p : Point) (k : Elem) (n : Nat) :
    (scalarLoop p k n r).DrawsFrom d := by
  induction n generalizing r with
  | zero => exact hr
  | succ i ih => exact ih (hr.double.add _)

end

theorem State.drawsFrom_scalarRun (s : State) (p : Point) (k : Elem) (bw : Nat) :
    (s.scalarRun p k bw).DrawsFrom s.draws :=
  have hstart : (s.startRun inf).DrawsFrom s.draws := ⟨Nat.le_refl _, fun _ _ => rfl⟩
  hstart.scalarLoop p k bw

/-- A run's pair and draw counter at the end of its command: a specified accumulator and no draw at
all, or a pair of fresh draws. -/
theorem State.endRun_ok_of_drawsFrom (s : State) (rd : PReg) {d : Nat} {r : PointRun}
    (hr : r.DrawsFrom d) :
    (∀ p, r.acc = some p → (s.endRun rd r).ok.preg rd = p ∧ (s.endRun rd r).ok.draws = d) ∧
    (r.acc = none → ∃ d', d ≤ d' ∧ (s.endRun rd r).ok.preg rd = unspecifiedPoint d' ∧
      (s.endRun rd r).ok.draws = d' + 2) := by
  obtain ⟨hle, hsome⟩ := hr
  refine ⟨fun p hp => ?_, fun hnone => ?_⟩
  · obtain ⟨hpreg, -, hdraws⟩ := s.endRun_ok_of_some rd hp rfl
    exact ⟨hpreg, hdraws.trans (hsome p hp)⟩
  · obtain ⟨hpreg, -, hdraws⟩ := s.endRun_ok_of_none rd hnone rfl
    exact ⟨r.draws, hle, hpreg, hdraws⟩

/-! ### SMUL (R89) -/

section
variable (rd ra : PReg) {bw : BitVec 12} (s : State)

theorem exec_smul_of_le (h : bw.toNat ≤ 240) : exec (.smul rd ra bw) s =
    .next (s.endRun rd (s.scalarRun (s.preg ra) s.k bw.toNat)).ok :=
  congrArg Host.Outcome.next (if_neg (Nat.not_lt.2 h))

theorem exec_smul_of_gt (h : 240 < bw.toNat) : exec (.smul rd ra bw) s =
    .next { s with err := 1 } :=
  congrArg Host.Outcome.next (if_pos h)

end

/-- Settles O27: the frame of a command that ends a run, and the value and draws of that run. -/
theorem smulResult : Obligations.SmulResult := by
  intro rd ra bw s
  refine ⟨opField_assemble .., fun hbw => ⟨_, exec_smul_of_le rd ra s hbw, ?_⟩,
    exec_smul_of_gt rd ra s⟩
  obtain ⟨hsome, hnone⟩ :=
    s.endRun_ok_of_drawsFrom rd (s.drawsFrom_scalarRun (s.preg ra) s.k bw.toNat)
  obtain ⟨hF, hK, hEnv⟩ := s.endRun_ok_keeps rd (s.scalarRun (s.preg ra) s.k bw.toNat)
  rw [State.scalarRun_acc] at hsome hnone
  refine ⟨hsome, hnone, fun h0 => (hsome inf ?_).1, fun hinf => (hsome inf ?_).1, rfl,
    s.fullP_ok_endRun rd _, rfl, rfl, rfl, hF, hK, hEnv⟩
  · rw [h0]
    exact scalarMul_zero _ _
  · rw [hinf]
    exact scalarMul_inf _ _

/-! ### Events (R134) -/

/-- A doubling of a specified accumulator emits `DBL` and the events of its value. -/
theorem PointRun.double_events_of_some {r : PointRun} {a : Point} (h : r.acc = some a) :
    r.double.events = r.events ++ .dbl :: doubleEvents a := by
  rw [double_events, (value_of_some h).1]

/-- Of the state, a scalar multiplication uses the draw counter only. -/
theorem State.scalarRun_of_draws_eq {s u : State} (h : u.draws = s.draws) (p : Point) (k : Elem)
    (bw : Nat) : u.scalarRun p k bw = s.scalarRun p k bw := by
  rw [scalarRun, startRun, h, scalarRun, startRun]

theorem exec_kgen_of_ok (rd : PReg) {s : State} (h : s.rngAnswer.ok = true) : exec (.kgen rd) s =
    .next (((s.rngFill 30).setK (scalarOfBytes s.rngAnswer.bytes)).endRun rd
      (s.scalarRun Config.generator.point (scalarOfBytes s.rngAnswer.bytes) 233)).ok :=
  congrArg Host.Outcome.next (if_pos h)

theorem exec_ssec_of_valid (rd : PReg) {ra : PReg} {s : State} (h0 : s.preg ra ≠ inf)
    (hv : pointValid (s.preg ra) = true) : exec (.ssec rd ra) s =
    .next ((s.emit [.sqr, .mul, .sqr, .mul]).endRun rd (s.secretRun (s.preg ra))).ok := by
  rw [← validEvents_of_isCanonical h0 (isCanonical_of_pointValid hv), exec, execSsec,
    pointIsZero_of_ne_inf h0, hv]
  rfl

section
variable {s : State} {p a : Point} {k : Elem} {bw : Nat}

/-- The doubling of the last iteration, for the value the iterations before it reached. -/
theorem State.scalarRun_double (ha : scalarMul p k bw = some a) :
    (s.scalarRun p k bw).double.acc = pointDouble a ∧
    (s.scalarRun p k bw).double.events =
      (s.scalarRun p k bw).events ++ .dbl :: doubleEvents a := by
  have hacc : (s.scalarRun p k bw).acc = some a := (s.scalarRun_acc p k bw).trans ha
  exact ⟨by rw [PointRun.double_acc, hacc, Option.bind_some], PointRun.double_events_of_some hacc⟩

/-- The events of the last iteration. -/
theorem State.scalarRun_succ_events (ha : scalarMul p (k >>> 1) bw = some a) :
    (s.scalarRun p k (bw + 1)).events =
      (s.scalarRun p (k >>> 1) bw).events ++ .dbl :: doubleEvents a ++
        .add :: addEvents (s.scalarRun p (k >>> 1) bw).double.value
          (if k.getLsbD 0 then p else inf) := by
  rw [State.scalarRun_succ, PointRun.add_events, (State.scalarRun_double ha).2]

/-- The events of SSEC after its key check: those of the multiplication and of the two cofactor
doublings (R99). -/
theorem State.secretRun_events {d : Point} (ha : scalarMul p s.k 233 = some a)
    (hd : pointDouble a = some d) : (s.secretRun p).events =
      (s.scalarRun p s.k 233).events ++ .dbl :: doubleEvents a ++ .dbl :: doubleEvents d := by
  obtain ⟨hacc, hev⟩ := State.scalarRun_double (s := s) ha
  have hsecond := PointRun.double_events_of_some (hacc.trans hd)
  rw [hev] at hsecond
  exact hsecond

end

/-- Settles O56: each command's trace takes the events of its run, and the runs differ by one
iteration, by nothing, and by the two cofactor doublings. -/
theorem scalarMulEventsAreThoseOfItsSteps : Obligations.ScalarMulEventsAreThoseOfItsSteps := by
  refine ⟨fun rd ra s => ⟨_, exec_smul_of_le rd ra s (Nat.zero_le _), List.append_nil _⟩,
    fun rd ra bw s a hbw ha => ?_, fun rd e s u hok hG htrace hdraws => ?_,
    fun rd ra s a d h0 hv ha hd => ?_⟩
  · have hsucc : (bw + 1).toNat = bw.toNat + 1 := by bv_omega
    have hlong := exec_smul_of_le rd ra s (bw := bw + 1) (by omega)
    have htrace := congrArg (s.trace ++ ·) (State.scalarRun_succ_events (s := s) ha)
    simp only [← List.append_assoc] at htrace
    rw [hsucc] at hlong
    refine ⟨_, _, exec_smul_of_le rd ra { s with k := s.k >>> 1 } hbw.le, hlong, fun d hd => ?_,
      fun _ => ⟨_, pointLevel_addEvents _ _, htrace⟩⟩
    rw [(PointRun.value_of_some ((State.scalarRun_double ha).1.trans hd)).1] at htrace
    exact htrace
  · refine ⟨_, exec_kgen_of_ok rd hok, fun hk => ⟨_, exec_smul_of_le rd e u (by decide), ?_⟩⟩
    replace hk : u.k = scalarOfBytes s.rngAnswer.bytes := hk
    rw [State.ok_trace, State.endRun_trace, htrace, hG, hk, State.scalarRun_of_draws_eq hdraws]
    rfl
  · refine ⟨_, _, _, exec_smul_of_le rd ra s (by decide), rfl, exec_ssec_of_valid rd h0 hv, ?_⟩
    have htrace := congrArg (s.trace ++ [.sqr, .mul, .sqr, .mul] ++ ·)
      (State.secretRun_events ha hd)
    simp only [← List.append_assoc] at htrace
    exact htrace

end Sys2Proof.Machine
end

section
/-! Proofs about the protocol layer (43_ecdh.md R98 to R100, R104 to R106): the bytes of a scalar,
the multiples by 0 and by 1, and what KGEN and SSEC leave in the state. -/

set_option autoImplicit false

namespace Sys2Proof.Machine

/-! ### The bytes of a scalar (R34, R98) -/

/-- A scalar with one more byte at its low end: one round of the fold of `scalarOfBytes`. -/
def appendByte (b : Byte) (v : Elem) : Elem := v <<< 8 ||| b.setWidth 240

theorem scalarOfBytes_eq_foldr (r : Vector Byte 30) :
    scalarOfBytes r = r.toList.reverse.foldr appendByte 0 :=
  List.foldl_eq_foldr_reverse

theorem elemByte_zero_appendByte (b : Byte) (v : Elem) : elemByte (appendByte b v) 0 = b := by
  refine BitVec.eq_of_getLsbD_eq fun i hi => ?_
  have hi' : i < 240 := by omega
  rw [getLsbD_elemByte, appendByte, BitVec.getLsbD_or, BitVec.getLsbD_shiftLeft,
    BitVec.getLsbD_setWidth]
  simp [hi, hi']

theorem elemByte_succ_appendByte (b : Byte) (v : Elem) {i : Nat} (hi : i + 1 < 30) :
    elemByte (appendByte b v) (i + 1) = elemByte v i := by
  refine BitVec.eq_of_getLsbD_eq fun l hl => ?_
  have hb : b.getLsbD (8 * (i + 1) + l) = false := BitVec.getLsbD_of_ge _ _ (by omega)
  have hsub : 8 * (i + 1) + l - 8 = 8 * i + l := by omega
  have hlt : 8 * (i + 1) + l < 240 := by omega
  have hge : ¬ 8 * (i + 1) + l < 8 := by omega
  rw [getLsbD_elemByte, getLsbD_elemByte, appendByte, BitVec.getLsbD_or,
    BitVec.getLsbD_shiftLeft, BitVec.getLsbD_setWidth, hb, hsub]
  simp [hlt, hge]

/-- Internal byte `i` is the `i`-th from the low end. -/
theorem elemByte_foldr_appendByte (bs : List Byte) {i : Nat} (hi : i < bs.length) (h30 : i < 30) :
    elemByte (bs.foldr appendByte 0) i = bs[i] := by
  induction bs generalizing i with
  | nil => cases hi
  | cons b bs ih =>
    cases i with
    | zero => exact elemByte_zero_appendByte b _
    | succ i =>
      have hi' : i < bs.length := Nat.lt_of_succ_lt_succ hi
      exact (elemByte_succ_appendByte b _ h30).trans (ih hi' (by omega))

/-- The first byte delivered is the most significant (R98). -/
theorem elemByte_scalarOfBytes (r : Vector Byte 30) (j : Fin 30) :
    elemByte (scalarOfBytes r) (29 - j.val) = r[j] := by
  have hj : 29 - j.val < r.toList.reverse.length := by simp; omega
  have hrev : 30 - 1 - (29 - j.val) = j.val := by omega
  rw [scalarOfBytes_eq_foldr, elemByte_foldr_appendByte _ hj (by omega)]
  simp [hrev]

/-- A register is its thirty bytes in the big-endian order of `KWIN`. -/
theorem eq_of_bigEndian_bytes {a b : Elem}
    (h : ∀ j : Fin 30, elemByte a (29 - j.val) = elemByte b (29 - j.val)) : a = b := by
  refine eq_of_elemByte_eq fun j => ?_
  have hrev : 29 - j.rev.val = j.val := by rw [Fin.val_rev]; omega
  rw [← hrev]
  exact h j.rev

/-- `KWIN` shows K big-endian (R34). -/
theorem State.readByte_kwin (s : State) (j : Fin 30) :
    s.readByte (0x200 + j.val) = some (elemByte s.k (29 - j.val)) := by
  obtain ⟨-, -, -, -, -, hk, -⟩ := windowBytesAreTheRegisterBits s
  exact hk j j.isLt

/-- Two windows `PWIN` over equal pairs show the same 60 bytes (R33). -/
theorem State.readByte_pwin_congr {s t : State} {k l : PReg} (h : s.preg k = t.preg l) {j : Nat}
    (hj : j < 60) :
    s.readByte (0x100 + 0x40 * k.val + j) = t.readByte (0x100 + 0x40 * l.val + j) := by
  obtain ⟨-, -, hxs, hys, -⟩ := windowBytesAreTheRegisterBits s
  obtain ⟨-, -, hxt, hyt, -⟩ := windowBytesAreTheRegisterBits t
  by_cases hlt : j < 30
  · rw [hxs k j hlt, hxt l j hlt, h]
  · rw [hys k j (by omega) hj, hyt l j (by omega) hj, h]

/-! ### Multiples by 0 and by 1 -/

theorem scalarMul_zero_scalar (p : Point) (bw : Nat) : scalarMul p 0 bw = some inf := by
  induction bw with
  | zero => exact scalarMul_zero p 0
  | succ n ih => exact scalarMul_succ_of_double_inf ih pointDouble_inf

/-- The accumulator is `INF` before the lowest bit. -/
theorem scalarMul_one_scalar (p : Point) (n : Nat) : scalarMul p 1 (n + 1) = some p :=
  scalarMul_succ_of_double_inf (scalarMul_zero_scalar p n) pointDouble_inf

/-! ### KGEN -/

theorem exec_kgen_of_not_ok (rd : PReg) {s : State} (h : s.rngAnswer.ok = false) :
    exec (.kgen rd) s = .next ((s.rngFill 30).raise .rngFailure) := by
  rw [exec, execKgen, State.generateKeyPair, h]
  rfl

/-- Settles O34, by the two answers of the source. -/
theorem kgenResult : Obligations.KgenResult := by
  intro rd s
  refine ⟨opField_assemble .., ?_⟩
  cases hok : s.rngAnswer.ok with
  | false =>
    exact ⟨_, exec_kgen_of_not_ok rd hok, rfl, rfl, rfl, rfl, rfl, rfl,
      fun _ => ⟨rfl, rfl, rfl, State.keepsF_none rfl rfl, State.keepsK_of rfl rfl⟩, nofun⟩
  | true =>
    refine ⟨_, exec_kgen_of_ok rd hok, rfl, rfl, rfl, rfl, rfl, rfl, nofun, fun _ => ?_⟩
    have hbytes := elemByte_scalarOfBytes s.rngAnswer.bytes
    obtain ⟨hsome, hnone⟩ := State.endRun_ok_of_drawsFrom
      ((s.rngFill 30).setK (scalarOfBytes s.rngAnswer.bytes)) rd
      (s.drawsFrom_scalarRun Config.generator.point (scalarOfBytes s.rngAnswer.bytes) 233)
    rw [State.scalarRun_acc] at hsome hnone
    have hfull := (s.rngFill 30).fullK_setK (scalarOfBytes s.rngAnswer.bytes)
    exact ⟨rfl, State.fullP_ok_endRun .., hfull, State.keepsF_pair rfl rfl, hbytes,
      fun j => (State.readByte_kwin _ j).trans (congrArg some (hbytes j)), hsome, hnone, rfl⟩

/-- Settles O35: the thirty bytes are those of 1, and the multiple by 1 is G. -/
theorem kgenOfScalarOnePublishesTheGenerator :
    Obligations.KgenOfScalarOnePublishesTheGenerator := by
  intro rd s a rest hrng hok hbytes
  have ha : s.rngAnswer = a := by rw [State.rngAnswer, hrng]
  obtain ⟨-, t, hexec, -, -, -, -, -, -, -, hans⟩ := kgenResult rd s
  rw [ha] at hans
  obtain ⟨herr, -, -, -, hk, -, hsome, -⟩ := hans hok
  have hone : ∀ j : Fin 30, elemByte 1 (29 - j.val) = if j.val = 29 then 1 else 0 := by decide
  have htk : t.k = 1 := eq_of_bigEndian_bytes fun j => by rw [hk, hbytes, hone]
  rw [htk] at hsome
  exact ⟨t, hexec, htk, (hsome _ (scalarMul_one_scalar _ 232)).1, herr⟩

/-- Settles O36: equal `KWIN` bytes make the scalars equal, and without a draw KGEN's multiple of G
has the value that SMUL computes. -/
theorem generatorSelfConsistency : Obligations.GeneratorSelfConsistency := by
  intro d a e s t u hok hexec hdraws hwin hG
  obtain ⟨-, t', hexec', -, -, -, -, -, -, -, hans⟩ := kgenResult d s
  obtain rfl : t' = t := Host.Outcome.next.inj (hexec'.symm.trans hexec)
  obtain ⟨-, -, -, -, hk, -, hsome, hnone⟩ := hans hok
  have huk : u.k = t'.k := eq_of_bigEndian_bytes fun j => by
    rw [hk, ← Option.some_inj, ← hwin, State.readByte_kwin]
  obtain ⟨-, hsmul, -⟩ := smulResult e a 233 u
  obtain ⟨v, hv, hvsome, -⟩ := hsmul (by decide)
  rw [hG, huk] at hvsome
  refine ⟨v, hv, fun j hj => State.readByte_pwin_congr ?_ hj⟩
  cases hmul : scalarMul Config.generator.point t'.k 233 with
  | none =>
    obtain ⟨n, hle, -, hn⟩ := hnone.1 hmul
    omega
  | some r => exact (hvsome r hmul).1.trans (hsome r hmul).1.symm

/-! ### SSEC -/

theorem State.secretRun_acc (s : State) (q : Point) :
    (s.secretRun q).acc = ((scalarMul q s.k 233).bind pointDouble).bind pointDouble := by
  rw [State.secretRun, PointRun.double_acc, PointRun.double_acc, State.scalarRun_acc]
  rfl

theorem State.drawsFrom_secretRun (s : State) (q : Point) : (s.secretRun q).DrawsFrom s.draws :=
  (s.drawsFrom_scalarRun q s.k 233).double.double

theorem exec_ssec_of_invalid (rd : PReg) {ra : PReg} {s : State}
    (h : s.preg ra = inf ∨ pointValid (s.preg ra) = false) : exec (.ssec rd ra) s =
    .next ((s.emit (validEvents (s.preg ra))).raise .remotePublicKeyInvalid) := by
  rw [exec, execSsec, if_pos]
  rwa [Bool.or_eq_true, pointIsZero_iff, Bool.not_eq_true']

/-- Settles O37: the frame of a command that ends a run, and the value and draws of the secret's
run. -/
theorem ssecResult : Obligations.SsecResult := by
  intro rd ra s
  refine ⟨opField_assemble .., fun h0 hv => ⟨_, exec_ssec_of_valid rd h0 hv, ?_⟩⟩
  obtain ⟨hsome, hnone⟩ := State.endRun_ok_of_drawsFrom (s.emit [.sqr, .mul, .sqr, .mul]) rd
    (s.drawsFrom_secretRun (s.preg ra))
  rw [State.secretRun_acc] at hsome hnone
  obtain ⟨hF, hK, hEnv⟩ :=
    (s.emit [.sqr, .mul, .sqr, .mul]).endRun_ok_keeps rd (s.secretRun (s.preg ra))
  exact ⟨hsome, hnone, rfl, State.fullP_ok_endRun .., rfl, rfl, rfl, hF, hK, hEnv⟩

/-- Settles O38: the trace takes the events of the key check alone, by its cases. -/
theorem ssecRejectsInvalidKeys : Obligations.SsecRejectsInvalidKeys := by
  intro rd ra s hbad p reduced
  have hred : p.isCanonical ↔ reduced := and_congr beq_iff_eq beq_iff_eq
  refine ⟨_, exec_ssec_of_invalid rd hbad, rfl, rfl, rfl, rfl, State.keepsF_none rfl rfl,
    State.keepsK_of rfl rfl, ⟨rfl, rfl, rfl, rfl⟩, ?_, fun h => ?_, fun h0 hr => ?_⟩
  · refine (pointLevel_append s.trace (validEvents p)).trans ?_
    rw [pointLevel_validEvents, List.append_nil]
  · rw [← hred] at h
    exact (congrArg (s.trace ++ ·) (validEvents_of_inf_or_not_canonical h)).trans
      (List.append_nil _)
  · exact congrArg (s.trace ++ ·) (validEvents_of_isCanonical h0 (hred.2 hr))

/-- Settles O39: every multiple of (1, 0) has y = 0, so the first cofactor doubling gives `INF`. -/
theorem ssecOfTheOrderFourKeyIsInfinity : Obligations.SsecOfTheOrderFourKeyIsInfinity := by
  intro rd ra s hkey
  obtain ⟨-, hvalid⟩ := ssecResult rd ra s
  rw [hkey] at hvalid
  obtain ⟨t, hexec, hsome, -, -, -, herr, -⟩ := hvalid (by decide) (by decide +kernel)
  have hdouble (b : Bool) : pointDouble (if b then ⟨1, 0⟩ else inf) = some inf :=
    (pointDouble_of_y_eq_zero (by cases b <;> rfl)).1
  obtain ⟨hinf, hdraws⟩ := hsome inf <| by
    rw [scalarMul_one_zero, Option.bind_some, hdouble, Option.bind_some, pointDouble_inf]
  exact ⟨t, hexec, hinf, herr, hdraws⟩

end Sys2Proof.Machine
end

section
/-! Proofs about errors (60_exceptions.md R108 to R120): the four ways a command ends, the state
each failure leaves, and the invariant of ERR and DEG. -/

set_option autoImplicit false

namespace Sys2Proof.Machine

/-- Settles O48: the idle step. -/
theorem idleUnitKeepsItsState : Obligations.IdleUnitKeepsItsState :=
  fun _ h => step_idle h

/-! ### How a command ends (R116) -/

/-- The command is an SSEC whose key is `INF` or invalid (R111). -/
def State.RejectsKey (s : State) (i : Instr) : Prop :=
  ∃ rd ra, i = .ssec rd ra ∧ (s.preg ra = inf ∨ pointValid (s.preg ra) = false)

/-- The command is a KGEN whose request the random-byte source will fail (R113). -/
def State.SourceFails (s : State) (i : Instr) : Prop :=
  ∃ rd, i = .kgen rd ∧ s.rngAnswer.ok = false

/-- The four ends of a command: completion, or one failure with the exact state it leaves. What a
completed command leaves, ERR aside, is the matter of its own result statement. -/
inductive CommandEnds : Instr → State → State → Prop
  | completed {i : Instr} {s t : State} (hwf : i.wf = true) (hkey : ¬ s.RejectsKey i)
      (hsource : ¬ s.SourceFails i) (herr : t.err = 0) : CommandEnds i s t
  | invalidArgument {i : Instr} {s : State} (hwf : i.wf = false) :
      CommandEnds i s s.illegalCommand
  | remotePublicKeyInvalid {rd ra : PReg} {s : State} (hkey : s.RejectsKey (.ssec rd ra)) :
      CommandEnds (.ssec rd ra) s
        ((s.emit (validEvents (s.preg ra))).raise .remotePublicKeyInvalid)
  | rngFailure {rd : PReg} {s : State} (hsource : s.SourceFails (.kgen rd)) :
      CommandEnds (.kgen rd) s ((s.rngFill 30).raise .rngFailure)

theorem exec_fmul_aliased (rd ra : FReg) (s : State) :
    exec (.fmul rd ra rd) s = .next s.illegalCommand :=
  congrArg Host.Outcome.next (if_pos rfl)

theorem exec_fmul_of_ne {rd rb : FReg} (ra : FReg) (s : State) (h : rd ≠ rb) :
    exec (.fmul rd ra rb) s =
      .next ((s.emit [.mul]).setF rd (fMul (s.freg ra) (s.freg rb))).ok :=
  congrArg Host.Outcome.next (if_neg h)

/-- Every command ends, in one of the four ways (R116, R138). -/
theorem exec_ends (i : Instr) (s : State) : ∃ t, exec i s = .next t ∧ CommandEnds i s t := by
  cases i with
  | fadd | fsqr | finv | fisz | feq | fdeg | pdbl | padd | pval | pisz =>
    exact ⟨_, rfl, .completed rfl nofun nofun rfl⟩
  | fmul rd ra rb =>
    by_cases h : rd = rb
    · subst h
      exact ⟨_, exec_fmul_aliased rd ra s, .invalidArgument (bne_self_eq_false rd)⟩
    · exact ⟨_, exec_fmul_of_ne ra s h, .completed (bne_iff_ne.2 h) nofun nofun rfl⟩
  | smul rd ra bw =>
    by_cases h : bw.toNat ≤ 240
    · exact ⟨_, exec_smul_of_le rd ra s h, .completed (decide_eq_true h) nofun nofun rfl⟩
    · exact ⟨_, exec_smul_of_gt rd ra s (Nat.lt_of_not_le h),
        .invalidArgument (decide_eq_false h)⟩
  | kgen rd =>
    cases hok : s.rngAnswer.ok with
    | false => exact ⟨_, exec_kgen_of_not_ok rd hok, .rngFailure ⟨rd, rfl, hok⟩⟩
    | true =>
      refine ⟨_, exec_kgen_of_ok rd hok, .completed rfl nofun ?_ rfl⟩
      rintro ⟨-, -, hfail⟩
      exact Bool.false_ne_true (hfail.symm.trans hok)
  | ssec rd ra =>
    by_cases hbad : s.preg ra = inf ∨ pointValid (s.preg ra) = false
    · exact ⟨_, exec_ssec_of_invalid rd hbad, .remotePublicKeyInvalid ⟨rd, ra, rfl, hbad⟩⟩
    · obtain ⟨h0, hv⟩ := not_or.1 hbad
      refine ⟨_, exec_ssec_of_valid rd h0 (eq_true_of_ne_false hv), .completed rfl ?_ nofun rfl⟩
      rintro ⟨_, _, heq, hbad'⟩
      cases heq
      exact hbad hbad'

theorem commandEnds_of_exec {i : Instr} {s t : State} (h : exec i s = .next t) :
    CommandEnds i s t := by
  obtain ⟨t', hexec, hends⟩ := exec_ends i s
  rw [h] at hexec
  cases hexec
  exact hends

theorem CommandEnds.err_produced {i : Instr} {s t : State} (h : CommandEnds i s t) :
    producedCode t.err := by
  cases h with
  | completed _ _ _ herr => exact .inl herr
  | invalidArgument => exact .inr (.inl rfl)
  | remotePublicKeyInvalid => exact .inr (.inr (.inl rfl))
  | rngFailure => exact .inr (.inr (.inr rfl))

/-- Settles O51: each of the four ends has its code, and no two of their conditions hold of one
command. -/
theorem everyCommandCompletesWithItsCode : Obligations.EveryCommandCompletesWithItsCode := by
  intro i s
  obtain ⟨t, hexec, hends⟩ := exec_ends i s
  have hcode := hends.err_produced
  refine ⟨t, hexec, ?_⟩
  cases hends with
  | completed hwf hkey hsource herr =>
    rw [herr] at hcode ⊢
    exact ⟨iff_of_false (by decide) (by simp [hwf]), iff_of_false (by decide) hkey,
      iff_of_false (by decide) hsource, hcode⟩
  | invalidArgument hwf =>
    rw [State.illegalCommand_err]
    refine ⟨iff_of_true rfl hwf, iff_of_false (by decide) ?_, iff_of_false (by decide) ?_, hcode⟩
    · rintro ⟨_, _, rfl, -⟩
      cases hwf
    · rintro ⟨_, rfl, -⟩
      cases hwf
  | remotePublicKeyInvalid hkey =>
    rw [State.raise_err]
    exact ⟨iff_of_false (by decide) nofun, iff_of_true rfl hkey, iff_of_false (by decide) nofun,
      hcode⟩
  | rngFailure hsource =>
    rw [State.raise_err]
    exact ⟨iff_of_false (by decide) nofun, iff_of_false (by decide) nofun, iff_of_true rfl hsource,
      hcode⟩

/-- Settles O53: each failure writes ERR, and besides it at most field-level events of the trace or
the record of the one request. -/
theorem failingCommandLeavesTheRegisters : Obligations.FailingCommandLeavesTheRegisters := by
  intro i s t hexec hfail
  cases commandEnds_of_exec hexec with
  | completed _ _ _ herr => exact absurd herr hfail
  | invalidArgument =>
    rw [State.illegalCommand_err]
    exact ⟨rfl, rfl, rfl, rfl, State.readByte_congr rfl rfl, rfl, fun h => absurd h (by decide),
      fun _ => ⟨rfl, rfl⟩⟩
  | remotePublicKeyInvalid =>
    rw [State.raise_err]
    refine ⟨rfl, rfl, rfl, rfl, State.readByte_congr rfl rfl, ?_, fun h => absurd h (by decide),
      fun _ => ⟨rfl, rfl⟩⟩
    rw [State.raise_trace, State.emit_trace, pointLevel_append, pointLevel_validEvents,
      List.append_nil]
  | rngFailure =>
    exact ⟨rfl, rfl, rfl, rfl, State.readByte_congr rfl rfl, rfl, fun _ => ⟨rfl, rfl⟩,
      fun h => absurd rfl h⟩

/-! ### The invariant (R19, R109, R112) -/

/-- DEG stays a bit index: FDEG alone writes it, with the degree of an operand. -/
theorem exec_deg_le {i : Instr} {s t : State} (hs : s.deg.toNat ≤ 239) (h : exec i s = .next t) :
    t.deg.toNat ≤ 239 := by
  obtain ⟨-, -, hdeg, -, -⟩ := flagAndSpecialRegisterWriters i s t h
  by_cases hne : t.deg = s.deg
  · rwa [hne]
  · obtain ⟨ra, rfl⟩ := hdeg hne
    cases h
    rw [State.ok_deg, State.setT_deg, State.setDeg_deg, BitVec.toNat_ofNat]
    exact (Nat.mod_le _ _).trans (Nat.le_of_lt_succ (degree_lt _))

theorem exec_inv {i : Instr} {s t : State} (hs : s.Inv) (h : exec i s = .next t) : t.Inv :=
  have ⟨_, hdeg⟩ := hs
  ⟨(commandEnds_of_exec h).err_produced, exec_deg_le hdeg h⟩

/-- A byte write changes registers only, which the invariant does not speak of. -/
theorem State.Inv.setSlot {s : State} (hs : s.Inv) (b : Byte) (r : Slot) : (s.setSlot b r).Inv := by
  rw [State.setSlot_eq_with]
  exact hs

/-- Settles O50, by what a step can have done: of the host's actions only a command and the reset
event write ERR or DEG. -/
theorem everyStepKeepsTheInvariant : Obligations.EveryStepKeepsTheInvariant := by
  intro s t hs h
  obtain ⟨-, rfl⟩ | ⟨a, rest, -, hact⟩ := step_cases h
  · exact hs
  · have hrest : ({ s with host := rest } : State).Inv := hs
    obtain ⟨_, hdeg⟩ := hs
    obtain ⟨_, _, _, -, -, rfl⟩ | ⟨_, b, r, -, -, rfl⟩ | ⟨_, _, -, -, -, rfl⟩ |
      ⟨_, i, -, -, -, hexec⟩ | ⟨-, rfl⟩ := hact
    · exact hrest
    · exact hrest.setSlot b r
    · exact ⟨.inr (.inl rfl), hdeg⟩
    · exact exec_inv hrest hexec
    · exact ⟨.inl rfl, Nat.zero_le 239⟩

end Sys2Proof.Machine
end

section
/-! Proofs about reset and constant shape (70_reset_and_hazards.md R122, R123, R131, R135, R136): the
point-level trace of every scalar multiplication, the trace of a zero scalar, and the state the
reset event leaves. -/

set_option autoImplicit false

namespace Sys2Proof.Machine

/-! ### Constant shape (R135) -/

section
variable (s : State) (p : Point) (k : Elem) (n : Nat) (r : PointRun)

theorem PointRun.pointLevel_double_events :
    pointLevel r.double.events = pointLevel r.events ++ [.dbl] := by
  rw [double_events, pointLevel_append, pointLevel_dbl, pointLevel_doubleEvents]

theorem PointRun.pointLevel_add_events (q : Point) :
    pointLevel (r.add q).events = pointLevel r.events ++ [.add] := by
  rw [add_events, pointLevel_append, pointLevel_add, pointLevel_addEvents]

/-- Whatever is accumulated and whatever the bit, an iteration shows one `DBL` and one `ADD`. -/
theorem pointLevel_scalarLoop_events :
    pointLevel (scalarLoop p k n r).events = pointLevel r.events ++ dblAdd n := by
  induction n generalizing r with
  | zero => exact (List.append_nil _).symm
  | succ i ih =>
    rw [scalarLoop_succ, ih, PointRun.pointLevel_add_events, PointRun.pointLevel_double_events,
      List.append_assoc, List.append_assoc]
    rfl

theorem State.pointLevel_scalarRun_events :
    pointLevel (s.scalarRun p k n).events = dblAdd n :=
  pointLevel_scalarLoop_events p k n (s.startRun inf)

theorem State.pointLevel_secretRun_events :
    pointLevel (s.secretRun p).events = dblAdd 233 ++ [.dbl, .dbl] := by
  rw [secretRun, PointRun.pointLevel_double_events, PointRun.pointLevel_double_events,
    pointLevel_scalarRun_events, List.append_assoc]
  rfl

end

/-- Settles O30: the point-level trace takes that of the command's run. -/
theorem constantShapeOfScalarMultiplication :
    Obligations.ConstantShapeOfScalarMultiplication := by
  refine ⟨fun rd ra bw s hbw => ⟨_, exec_smul_of_le rd ra s hbw, ?_⟩,
    fun rd s hok => ⟨_, exec_kgen_of_ok rd hok, ?_⟩,
    fun rd ra s h0 hv => ⟨_, exec_ssec_of_valid rd h0 hv, ?_⟩⟩
  · rw [State.ok_trace, State.endRun_trace, pointLevel_append, State.pointLevel_scalarRun_events]
  · rw [State.ok_trace, State.endRun_trace, pointLevel_append, State.pointLevel_scalarRun_events]
    rfl
  · have hcheck : pointLevel [.sqr, .mul, .sqr, .mul] = [] := rfl
    rw [State.ok_trace, State.endRun_trace, State.emit_trace, pointLevel_append, pointLevel_append,
      hcheck, List.append_nil, State.pointLevel_secretRun_events, List.append_assoc]

/-! ### A zero scalar (R131, R136) -/

section
variable {r : PointRun} (h : r.acc = some inf)
include h

/-- Doubling `INF` and adding `INF` to it gives `INF` by no field operation. -/
theorem PointRun.double_add_inf_of_inf : (r.double.add inf).acc = some inf ∧
    (r.double.add inf).events = r.events ++ [.dbl, .add] := by
  have hdouble : r.double.acc = some inf := by
    rw [double_acc, h, Option.bind_some, pointDouble_inf]
  refine ⟨?_, ?_⟩
  · rw [add_acc, hdouble, Option.bind_some, (pointAdd_of_right_eq_inf rfl).1]
  · rw [add_events, (pointAdd_of_right_eq_inf rfl).2, double_events_of_some h,
      (pointDouble_of_y_eq_zero rfl).2, List.append_assoc]
    rfl

/-- From `INF`, a loop that meets no set bit stays at `INF` and emits no field-level event. -/
theorem scalarLoop_of_bits_zero (p : Point) {k : Elem} {n : Nat}
    (hk : ∀ i < n, k.getLsbD i = false) : (scalarLoop p k n r).acc = some inf ∧
      (scalarLoop p k n r).events = r.events ++ dblAdd n := by
  induction n generalizing r with
  | zero => exact ⟨h, (List.append_nil _).symm⟩
  | succ i ih =>
    obtain ⟨hacc, hev⟩ := PointRun.double_add_inf_of_inf h
    obtain ⟨hacc', hev'⟩ := ih hacc fun j hj => hk j (hj.trans i.lt_succ_self)
    rw [hev, List.append_assoc] at hev'
    rw [scalarLoop_succ, hk i i.lt_succ_self]
    exact ⟨hacc', hev'⟩

end

/-- Settles O31: the loop starts from `INF`. -/
theorem zeroScalarGivesInfinityWithoutFieldEvent :
    Obligations.ZeroScalarGivesInfinityWithoutFieldEvent := by
  intro rd ra bw s hbw hk
  obtain ⟨hacc, hev⟩ := scalarLoop_of_bits_zero (r := s.startRun inf) rfl (s.preg ra) hk
  obtain ⟨hpreg, htrace, -⟩ := s.endRun_ok_of_some rd hacc hev
  exact ⟨_, exec_smul_of_le rd ra s hbw, hpreg, rfl, htrace⟩

/-! ### The reset event (R122, R123) -/

theorem State.freg_resetEvent (s : State) (n : FReg) :
    s.resetEvent.freg n = Config.unspecified240 (s.draws + n.val) :=
  Vector.getElem_ofFn n.isLt

theorem State.fullF_resetEvent (s : State) (n : FReg) : s.resetEvent.fullF n = false := by
  have hmark : s.resetEvent.wrF[n] = 0 := Vector.getElem_replicate n.isLt
  rw [fullF, hmark]
  rfl

/-- Settles O47: the reset event takes effect on the state it was taken from. -/
theorem resetEventLeavesTheResetValues : Obligations.ResetEventLeavesTheResetValues := by
  intro s rest h
  exact ⟨_, step_action h, rfl, rfl, rfl, rfl, rfl,
    fun n => ⟨State.freg_resetEvent _ n, State.fullF_resetEvent _ n⟩, rfl, rfl, rfl⟩

end Sys2Proof.Machine
end
